-- ==== Sys2Proof/Word.lean ====
section
/-! DEFINITION. The word types of the core and the two records of eight words (00_scope.md R9, R10; 10_state.md R21, R29). -/

namespace Sys2Proof

/-- A 32-bit word: command, data, response, hash-state, schedule and round-constant words (R9). -/
abbrev Word := BitVec 32

/-- An unsigned 8-bit value (R12). -/
abbrev Byte := BitVec 8

/-- The eight words `H[0]` to `H[7]` of the hash state (R21). -/
structure HashState where
  h0 : Word
  h1 : Word
  h2 : Word
  h3 : Word
  h4 : Word
  h5 : Word
  h6 : Word
  h7 : Word
deriving DecidableEq, Repr

/-- The eight working registers `a` to `h` of the Compression Engine, which live inside one evaluation of
`compress` only (R29). -/
structure Working where
  a : Word
  b : Word
  c : Word
  d : Word
  e : Word
  f : Word
  g : Word
  h : Word
deriving DecidableEq, Repr

end Sys2Proof
end

