-- ==== Sys2Proof/Machine/ByteOrder.lean ====
section
/-! DEFINITION. The byte and word views of the data, all big-endian and fixed (20_memory.md R50 to R55). -/

namespace Sys2Proof.Machine

/-- Byte `k` of a word, `0 <= k <= 3`: bits `31 - 8k` down to `24 - 8k` (R53). -/
def byteOf (w : Word) (k : Nat) : Byte := w.extractLsb' (24 - 8 * k) 8

/-- The word whose bytes are `b0` (bits 31:24) to `b3` (bits 7:0) (R50). -/
def be32 (b0 b1 b2 b3 : Byte) : Word := b0 ++ b1 ++ b2 ++ b3

/-- The four bytes of a word, most significant first (R52, R53). -/
def wordBytes (w : Word) : List Byte := [byteOf w 0, byteOf w 1, byteOf w 2, byteOf w 3]

/-- The big-endian words of a byte sequence, four bytes a word; a 64-byte block gives 16 (R50). Fewer than four bytes
left over make no word. -/
def beWords : List Byte → List Word
  | b0 :: b1 :: b2 :: b3 :: bs => be32 b0 b1 b2 b3 :: beWords bs
  | _ => []

/-- Byte `j` of the 64-bit length, `0 <= j <= 7`: bits `63 - 8j` down to `56 - 8j` (R51). -/
def lengthByte (L : BitVec 64) (j : Nat) : Byte := L.extractLsb' (56 - 8 * j) 8

/-- The length field: the 64-bit length as 8 big-endian bytes (R51). -/
def lengthBytes (L : BitVec 64) : List Byte :=
  [lengthByte L 0, lengthByte L 1, lengthByte L 2, lengthByte L 3,
   lengthByte L 4, lengthByte L 5, lengthByte L 6, lengthByte L 7]

end Sys2Proof.Machine
end

