-- ==== Sys2Proof/Config.lean ====
section
/-! DEFINITION. What an implementation fixes: the largest UPDATE, and the two points the spec leaves open, as free
values without a body. `STEP_LATENCY` (70_reset_and_hazards.md R270) is no value here: no rule depends on it. -/

namespace Sys2Proof

/-- `MAXUPD`: the largest byte count one UPDATE carries (00_scope.md R9). -/
def Config.maxUpd : Nat := 2 ^ 28 - 1

/-- The open parameter `RESET_RSP_DELIVERY` (70_reset_and_hazards.md R252): how many of the response words not yet
taken stay deliverable after a reset. The argument counts the resets before this one, so each reset has a value of
its own. FREE VALUE: nothing in Lean evaluates it (log entry 4). -/
opaque Config.resetRspDelivery : Nat → Nat

/-- Whether the output is full when it holds this many response words the host has not taken
(70_reset_and_hazards.md R263, 93_implementation_defined.md I6). FREE VALUE (log entry 5). -/
opaque Config.outputFull : Nat → Bool

end Sys2Proof
end

