-- ==== Sys2Proof/Syntax.lean ====
section
/-! DEFINITION. The instructions: one constructor per row of the opcode table, with the fields its words carry; and the
decoder state, which says how the next word is read. -/

namespace Sys2Proof

/-- `DEC` (10_state.md R30): how the core reads the next input word. -/
inductive Dec where
  /-- the next word is a command word -/
  | cmd
  /-- an UPDATE is in progress with `r` message bytes still to arrive; the next word is a data word -/
  | data (r : Nat)
deriving DecidableEq, Repr

/-- The input words of the core, as the opcode table classes them (30_encoding.md R70 to R79). -/
inductive Instr where
  /-- INIT (R73) -/
  | init
  /-- UPDATE of `n` message bytes (R75) -/
  | update (n : BitVec 28)
  /-- FINALIZE (R74) -/
  | finalize
  /-- a command word with `OP = 0x0` (R79) -/
  | illegalOp0 (arg : BitVec 28)
  /-- a command word with `OP = 0x1` and `ARG` not 0 (R79) -/
  | illegalInitArg (arg : BitVec 28)
  /-- a command word with `OP = 0x3` and `ARG` not 0 (R79) -/
  | illegalFinalizeArg (arg : BitVec 28)
  /-- a command word with `OP` from `0x4` to `0x7` (R79) -/
  | illegalOp4to7 (op : BitVec 4) (arg : BitVec 28)
  /-- a command word with `OP` from `0x8` to `0xF` (R79) -/
  | illegalOp8toF (op : BitVec 4) (arg : BitVec 28)
  /-- a data word of an UPDATE, its four byte lanes, `b0` in bits 31:24 (R76, R77) -/
  | data (b0 b1 b2 b3 : Byte)
deriving DecidableEq, Repr

/-- The word is one of the illegal command words of R79. -/
def Instr.isIllegal : Instr → Bool
  | .init => false
  | .update _ => false
  | .finalize => false
  | .illegalOp0 _ => true
  | .illegalInitArg _ => true
  | .illegalFinalizeArg _ => true
  | .illegalOp4to7 _ _ => true
  | .illegalOp8toF _ _ => true
  | .data _ _ _ _ => false

/-- The word is a data word, which only `DEC = DATA(r)` reads (R71). -/
def Instr.isData : Instr → Bool
  | .init => false
  | .update _ => false
  | .finalize => false
  | .illegalOp0 _ => false
  | .illegalInitArg _ => false
  | .illegalFinalizeArg _ => false
  | .illegalOp4to7 _ _ => false
  | .illegalOp8toF _ _ => false
  | .data _ _ _ _ => true

end Sys2Proof
end

