-- ==== Sys2Proof/WellFormed.lean ====
section
/-! DEFINITION. Which instruction terms stand for a word, and which decoder states are legal. -/

namespace Sys2Proof

/-- The fields an instruction term may carry (30_encoding.md R72, R75, R79): every `ARG` is legal for UPDATE; the
illegal INIT and FINALIZE rows need `ARG` not 0; the two reserved ranges of `OP` are 4 to 7 and 8 to 15. -/
def Instr.wf : Instr → Bool
  | .init => true
  | .update _ => true
  | .finalize => true
  | .illegalOp0 _ => true
  | .illegalInitArg arg => arg != 0
  | .illegalFinalizeArg arg => arg != 0
  | .illegalOp4to7 op _ => 4 ≤ op.toNat && op.toNat ≤ 7
  | .illegalOp8toF op _ => 8 ≤ op.toNat
  | .data _ _ _ _ => true

/-- The legal decoder states: `CMD`, and `DATA(r)` with `1 <= r <= 2^28 - 1` (10_state.md R30). -/
def Dec.wf : Dec → Bool
  | .cmd => true
  | .data r => 1 ≤ r && r ≤ Config.maxUpd

/-- The decoder state reads the word of `i`: a data word in `DATA(r)`, any other in `CMD` (30_encoding.md R71). -/
def Dec.reads : Dec → Instr → Bool
  | .cmd, i => !i.isData
  | .data _, i => i.isData

end Sys2Proof
end

