-- ==== Sys2Proof/Decode.lean ====
section
/-! DEFINITION. The decoder, total on every word in every decoder state, and the encoder, both written from
30_encoding.md §1 to §5. The words it rejects are the illegal command words of R79; each of their rows is a
constructor of its own, so the rejection has a name. -/

namespace Sys2Proof

/-- `OP = w[31:28]` (R70). -/
def opField (w : Word) : BitVec 4 := w.extractLsb' 28 4

/-- `ARG = w[27:0]`, read unsigned (R70, R85). -/
def argField (w : Word) : BitVec 28 := w.extractLsb' 0 28

/-- A word read while `DEC = CMD` (R72, R79; 43_control.md R190). -/
def decodeCommand (w : Word) : Instr :=
  if opField w = 0x0#4 then .illegalOp0 (argField w)
  else if opField w = 0x1#4 then
    if argField w = 0#28 then .init else .illegalInitArg (argField w)
  else if opField w = 0x2#4 then .update (argField w)
  else if opField w = 0x3#4 then
    if argField w = 0#28 then .finalize else .illegalFinalizeArg (argField w)
  else if opField w < 0x8#4 then .illegalOp4to7 (opField w) (argField w)
  else .illegalOp8toF (opField w) (argField w)

/-- A word read while `DEC = DATA(r)`: its byte lanes, whatever its bits (R71, R77). -/
def decodeData (w : Word) : Instr :=
  .data (Machine.byteOf w 0) (Machine.byteOf w 1) (Machine.byteOf w 2) (Machine.byteOf w 3)

/-- The instruction an input word stands for, by `DEC` alone (R71; 20_memory.md R66). -/
def decode (d : Dec) (w : Word) : Instr :=
  match d with
  | .cmd => decodeCommand w
  | .data _ => decodeData w

/-- A command word from its two fields (R70). -/
def commandWord (op : BitVec 4) (arg : BitVec 28) : Word := op ++ arg

/-- The word of an instruction (R72 to R77). -/
def encode : Instr → Word
  | .init => 0x10000000#32
  | .update n => commandWord 0x2#4 n
  | .finalize => 0x30000000#32
  | .illegalOp0 arg => commandWord 0x0#4 arg
  | .illegalInitArg arg => commandWord 0x1#4 arg
  | .illegalFinalizeArg arg => commandWord 0x3#4 arg
  | .illegalOp4to7 op arg => commandWord op arg
  | .illegalOp8toF op arg => commandWord op arg
  | .data b0 b1 b2 b3 => Machine.be32 b0 b1 b2 b3

/-- How many input words a command takes, from its first word alone (R78): `1 + ceil(n/4)` for UPDATE, one for every
other command. -/
def commandLength : Instr → Nat
  | .init => 1
  | .update n => 1 + (n.toNat + 3) / 4
  | .finalize => 1
  | .illegalOp0 _ => 1
  | .illegalInitArg _ => 1
  | .illegalFinalizeArg _ => 1
  | .illegalOp4to7 _ _ => 1
  | .illegalOp8toF _ _ => 1
  | .data _ _ _ _ => 1

/-- `DEC` after a word: it depends on `DEC` and the word alone (10_state.md R30; R94). -/
def Dec.after (d : Dec) (w : Word) : Dec :=
  match d with
  | .data r => if r ≤ 4 then .cmd else .data (r - 4)
  | .cmd =>
    if opField w = 0x2#4 ∧ argField w ≠ 0#28 then .data (argField w).toNat else .cmd

/-- The instruction the decoder reads from the table's number `w`. An input word is one 32-bit word (R57), so a number
that needs more is no instruction. A row of the table is read as a command word; the one row whose pattern fixes no
bit, the data word, is asked for with `nbits = 0` (log entry 10). -/
def decodeTableWord (nbits w : Nat) : Option Instr :=
  if nbits = 0 then some (decodeData (BitVec.ofNat 32 w))
  else if nbits ≤ 32 ∧ w < 2 ^ 32 then some (decodeCommand (BitVec.ofNat 32 w))
  else none

end Sys2Proof
end

