-- ==== Sys2Proof/Machine/WordOps.lean ====
section
/-! DEFINITION. The word operations and the six logical functions of the Compression Engine (40_compression.md R100 to
R112). Addition modulo 2^32 (R100), exclusive or (R101), and (R102) and complement (R103) are the bit vector's own. -/

namespace Sys2Proof.Machine

/-- Right rotation by a constant `n`, `0 < n < 32` (R104). -/
def rotr (x : Word) (n : Nat) : Word := (x >>> n) ||| (x <<< (32 - n))

/-- Logical right shift by a constant `n`, zero fill (R105). -/
def shr (x : Word) (n : Nat) : Word := x >>> n

/-- σ0 (R107). -/
def smallSigma0 (x : Word) : Word := rotr x 7 ^^^ rotr x 18 ^^^ shr x 3

/-- σ1 (R108). -/
def smallSigma1 (x : Word) : Word := rotr x 17 ^^^ rotr x 19 ^^^ shr x 10

/-- Σ0 (R109). -/
def bigSigma0 (x : Word) : Word := rotr x 2 ^^^ rotr x 13 ^^^ rotr x 22

/-- Σ1 (R110). -/
def bigSigma1 (x : Word) : Word := rotr x 6 ^^^ rotr x 11 ^^^ rotr x 25

/-- `Ch(x, y, z)` (R111). -/
def choose (x y z : Word) : Word := (x &&& y) ^^^ (~~~x &&& z)

/-- `Maj(x, y, z)` (R112). -/
def majority (x y z : Word) : Word := (x &&& y) ^^^ (x &&& z) ^^^ (y &&& z)

end Sys2Proof.Machine
end

