-- ==== Sys2Proof/Machine/Compression.lean ====
section
/-! DEFINITION. The Compression Engine: message schedule, rounds, final addition, `compress` and `compress*`
(40_compression.md R113 to R121). -/

namespace Sys2Proof.Machine

/-- `W[t]` for `t >= 16`, from the words before it, latest first: `σ1(W[t-2]) + W[t-7] + σ0(W[t-15]) + W[t-16]`
(R113). -/
def nextScheduleWord (latestFirst : List Word) : Word :=
  smallSigma1 (latestFirst.getD 1 0) + latestFirst.getD 6 0
    + smallSigma0 (latestFirst.getD 14 0) + latestFirst.getD 15 0

/-- The schedule grown by `n` words, latest first. -/
def extendSchedule : Nat → List Word → List Word
  | 0, latestFirst => latestFirst
  | n + 1, latestFirst => extendSchedule n (nextScheduleWord latestFirst :: latestFirst)

/-- `schedule(B)`: `W[0..63]` of a 64-byte block (R113). -/
def schedule (B : List Byte) : List Word := (extendSchedule 48 (beWords B).reverse).reverse

/-- The working registers before round 0 (R114). -/
def Working.ofHash (H : HashState) : Working :=
  ⟨H.h0, H.h1, H.h2, H.h3, H.h4, H.h5, H.h6, H.h7⟩

/-- One round, with `K[t]` and `W[t]` (R115): every register is written from the values before the round. -/
def compressRound (v : Working) (kw : Word × Word) : Working :=
  let T1 := v.h + bigSigma1 v.e + choose v.e v.f v.g + kw.1 + kw.2
  let T2 := bigSigma0 v.a + majority v.a v.b v.c
  ⟨T1 + T2, v.a, v.b, v.c, v.d + T1, v.e, v.f, v.g⟩

/-- The 64 rounds in order, round `t` with `K[t]` and `W[t]` (R116). -/
def allRounds (v : Working) (W : List Word) : Working := (roundConstants.zip W).foldl compressRound v

/-- The final addition (R117). -/
def addWorking (H : HashState) (v : Working) : HashState :=
  ⟨H.h0 + v.a, H.h1 + v.b, H.h2 + v.c, H.h3 + v.d, H.h4 + v.e, H.h5 + v.f, H.h6 + v.g, H.h7 + v.h⟩

/-- `compress(H, B)` (R120). -/
def compress (H : HashState) (B : List Byte) : HashState :=
  addWorking H (allRounds (Working.ofHash H) (schedule B))

/-- `compress` over the first `n` 64-byte blocks of a sequence, in message order (R121). -/
def compressBlocks : Nat → HashState → List Byte → HashState
  | 0, H, _ => H
  | n + 1, H, S => compressBlocks n (compress H (S.take 64)) (S.drop 64)

/-- `compress*(H, S)`, for a sequence `S` of whole 64-byte blocks (R121). -/
def compressStar (H : HashState) (S : List Byte) : HashState := compressBlocks (S.length / 64) H S

end Sys2Proof.Machine
end

