-- ==== Sys2Proof/Machine/State.lean ====
section
/-! DEFINITION. The state of the core (10_state.md R20), the ports around it, the reasons a step can stop, and the state
after reset (R35; 70_reset_and_hazards.md R250). -/

namespace Sys2Proof.Machine

/-- What the environment does to the core, one event at a time (00_scope.md R8; 70_reset_and_hazards.md R250, R263). -/
inductive Input where
  /-- a 32-bit word offered on the command port -/
  | word (w : Word)
  /-- the reset input -/
  | reset
  /-- the host takes `n` response words from the response port, or all there are -/
  | take (n : Nat)
deriving DecidableEq, Repr

/-- The architectural state `(H, BUF, CNT, CLOSED, DEC)` of R20, the ports, and three fields that serve the model. -/
structure State where
  /-- `H[0..7]` (R21) -/
  hash : HashState
  /-- `BUF`, exactly `len(BUF)` bytes (R23) -/
  buf : List Byte
  /-- `CNT` (R24) -/
  cnt : BitVec 64
  /-- `CLOSED` (R27) -/
  closed : Bool
  /-- `DEC` (R30) -/
  dec : Dec
  /-- response words emitted and not yet taken by the host, oldest first (30_encoding.md R80) -/
  pending : List Word
  /-- response words the host has taken, oldest first (the model's own, log entry 3) -/
  taken : List Word
  /-- what the environment does next, in order (log entry 1) -/
  input : List Input
  /-- the core has been reset since power-on (70_reset_and_hazards.md R253) -/
  everReset : Bool
  /-- resets seen, the index of the free value `Config.resetRspDelivery` (the model's own, log entry 4) -/
  resets : Nat
deriving DecidableEq, Repr

/-- No fault exists: "There is no fault state, no stuck state and no refusal inside the core" (43_control.md R191), and
"No condition in the core traps" (00_scope.md R13). Errors are status words (60_exceptions.md R220). So no constructor:
nothing raises a fault, which is safe. -/
inductive Fault where
deriving DecidableEq, Repr

/-- Why the model does not step. -/
inductive Refusal where
  /-- raised by an arm of `exec` for an instruction without a meaning; safe -/
  | notModelled (mnemonic : String)
  /-- raised by `step` for a word or a taking of responses in a launch state that no reset has reached
  (70_reset_and_hazards.md R253: a model "refuses a run that does not begin with reset"); safe (log entry 6) -/
  | beforeFirstReset
  /-- raised by the meaning of a data word asked for while `DEC = CMD`, which no step does (30_encoding.md R71); safe
  (log entry 8) -/
  | dataWordOutsideUpdate
deriving DecidableEq, Repr

/-- The machine right after reset (R35; 70_reset_and_hazards.md R250), with nothing offered and nothing emitted. -/
def State.reset : State where
  hash := IV
  buf := []
  cnt := 0
  closed := false
  dec := .cmd
  pending := []
  taken := []
  input := []
  everReset := true
  resets := 0

end Sys2Proof.Machine
end

