-- ==== Sys2Proof/Machine/Flags.lean ====
section
/-! DEFINITION. The one flag, `CLOSED` (10_state.md R27, R32), and the status words it decides (30_encoding.md R81). -/

namespace Sys2Proof.Machine

/-- The status codes; the core emits no other (R81). -/
inductive Status where
  | ok
  | alreadyFinalized
  | illegalCommand
deriving DecidableEq, Repr

/-- The status word: bits 31:8 are 0, bits 7:0 hold the code (R81). -/
def statusWord : Status → Word
  | .ok => 0x00000000
  | .alreadyFinalized => 0x00000001
  | .illegalCommand => 0x00000002

/-- The status an UPDATE answers, by `CLOSED` (41_block_buffer.md R145). -/
def updateStatus (closed : Bool) : Status := if closed then .alreadyFinalized else .ok

/-- `CLOSED <- 1`, which only FINALIZE does (42_finalizer.md R166). -/
def State.close (s : State) : State := { s with closed := true }

end Sys2Proof.Machine
end

