-- ==== Sys2Proof/Machine/Ops.lean ====
section
/-! DEFINITION. The shared operations: emitting responses, reporting an error, the Block Buffer, the fresh hasher, and
what the host and the reset input do. -/

namespace Sys2Proof.Machine

/-- `emit(v)` (00_scope.md R13; 30_encoding.md R80). -/
def State.emit (s : State) (v : Word) : State := { s with pending := s.pending ++ [v] }

/-- `emit` of several words in order. -/
def State.emitAll (s : State) (vs : List Word) : State := { s with pending := s.pending ++ vs }

/-- `emit` of a status word (R81). -/
def State.emitStatus (s : State) (st : Status) : State := s.emit (statusWord st)

/-- What an error does, in place of an exception: its status word and nothing else. No pc, cause, vector, handler or mode
exists, nothing is sticky, and there is no return (60_exceptions.md R220, R223 to R225). -/
def State.reportError (s : State) (st : Status) : State := s.emitStatus st

/-- `DEC <- d` (10_state.md R30). -/
def State.setDec (s : State) (d : Dec) : State := { s with dec := d }

/-- `CNT <- (CNT + 8) mod 2^64` (41_block_buffer.md R144). -/
def State.countByte (s : State) : State := { s with cnt := s.cnt + 8 }

/-- `feed_byte(b)` (41_block_buffer.md R140), with its flush (R141). -/
def State.feedByte (s : State) (b : Byte) : State :=
  let buf := s.buf ++ [b]
  if buf.length = 64 then { s with hash := compress s.hash buf, buf := [] } else { s with buf := buf }

/-- `feed(bs)` (R142). -/
def State.feed (s : State) (bs : List Byte) : State := bs.foldl State.feedByte s

/-- One message byte of an accepted UPDATE: `feed_byte`, then the counter (R144, R145). -/
def State.acceptByte (s : State) (b : Byte) : State := (s.feedByte b).countByte

/-- The message bytes of an accepted UPDATE, in order (R145). -/
def State.accept (s : State) (bs : List Byte) : State := bs.foldl State.acceptByte s

/-- The fresh hasher that reset and INIT leave (10_state.md R35; 43_control.md R200). -/
def State.freshHasher (s : State) : State := { s with hash := IV, buf := [], cnt := 0, closed := false }

/-- The reset event (70_reset_and_hazards.md R250, R251). It emits nothing; of the response words not yet taken a prefix
stays deliverable, how long being the free value `RESET_RSP_DELIVERY` (R252). -/
def State.resetEvent (s : State) : State :=
  { s.freshHasher with
    dec := .cmd
    pending := s.pending.take (Config.resetRspDelivery s.resets)
    everReset := true
    resets := s.resets + 1 }

/-- The host takes `n` response words, oldest first, or all there are (20_memory.md R63; 70_reset_and_hazards.md
R263). -/
def State.hostTake (s : State) (n : Nat) : State :=
  { s with taken := s.taken ++ s.pending.take n, pending := s.pending.drop n }

/-- The core takes an input word: it always does when the host has taken every response, and else unless the output is
full (R263, 93_implementation_defined.md I6). -/
def State.hasRoom (s : State) : Bool :=
  match s.pending with
  | [] => true
  | _ :: vs => !Config.outputFull (vs.length + 1)

/-- The event is a word offered on the command port. -/
def Input.isWord : Input → Bool
  | .word _ => true
  | .reset => false
  | .take _ => false

/-- The core holds up its input: the words offered wait in order, and the next thing the host does on the response port
or the reset input goes on; with no such act nothing changes (R263; log entry 5). -/
def State.waitForRoom (s : State) : State :=
  let waiting := s.input.takeWhile Input.isWord
  match s.input.dropWhile Input.isWord with
  | .take n :: rest => { s with input := waiting ++ rest }.hostTake n
  | .reset :: rest => { s with input := waiting ++ rest }.resetEvent
  | _ => s

end Sys2Proof.Machine
end

