-- ==== Sys2Proof/Machine/Control.lean ====
section
/-! DEFINITION. INIT and the illegal command words (43_control.md R200, R205). -/

namespace Sys2Proof.Machine

/-- INIT: the fresh hasher, then OK; `DEC` stays as it is (R200). -/
def execInit (s : State) : Host.Outcome State Fault Refusal := .next (s.freshHasher.emitStatus .ok)

/-- What every illegal command word does: ILLEGAL_COMMAND and nothing else (R205). -/
def illegalCommand (s : State) : Host.Outcome State Fault Refusal := .next (s.reportError .illegalCommand)

/-- A word with `OP = 0x0` (30_encoding.md R79); its bits are not kept (R205). -/
def execIllegalOp0 (s : State) : Host.Outcome State Fault Refusal := illegalCommand s

/-- A word with `OP = 0x1` and `ARG` not 0 (R79). -/
def execIllegalInitArg (s : State) : Host.Outcome State Fault Refusal := illegalCommand s

/-- A word with `OP = 0x3` and `ARG` not 0 (R79). -/
def execIllegalFinalizeArg (s : State) : Host.Outcome State Fault Refusal := illegalCommand s

/-- A word with `OP` from 4 to 7 (R79). -/
def execIllegalOp4to7 (s : State) : Host.Outcome State Fault Refusal := illegalCommand s

/-- A word with `OP` from 8 to 15 (R79). -/
def execIllegalOp8toF (s : State) : Host.Outcome State Fault Refusal := illegalCommand s

end Sys2Proof.Machine
end

