-- ==== Sys2Proof/Machine/Finalizer.lean ====
section
/-! DEFINITION. The Finalizer and FINALIZE (42_finalizer.md R160 to R171). -/

namespace Sys2Proof.Machine

/-- Step 2, `while len(BUF) != 56: feed_byte(0x00)` (R163), with fuel; 63 iterations are enough for every `len(BUF)` of
10_state.md R23 (log entry 9). -/
def State.zeroFill : Nat → State → State
  | 0, s => s
  | n + 1, s => if s.buf.length = 56 then s else State.zeroFill n (s.feedByte 0x00)

/-- The padding of the message: the latched length `L`, the marker byte, the zero fill, the length field (R161 to
R164). -/
def State.padMessage (s : State) : State :=
  let L := s.cnt
  ((s.feedByte 0x80).zeroFill 63).feed (lengthBytes L)

/-- The digest words `H[0]` to `H[7]` (R168; 30_encoding.md R83). -/
def digestWords (H : HashState) : List Word := [H.h0, H.h1, H.h2, H.h3, H.h4, H.h5, H.h6, H.h7]

/-- The digest as 32 bytes, the state words serialised big-endian (R167; 20_memory.md R52). -/
def digestBytes (H : HashState) : List Byte := (digestWords H).flatMap wordBytes

/-- FINALIZE (R166): on an open core pad, compress and close; then OK and the digest. -/
def execFinalize (s : State) : Host.Outcome State Fault Refusal :=
  let s' := if s.closed then s else s.padMessage.close
  .next ((s'.emitStatus .ok).emitAll (digestWords s'.hash))

/-- The number of zero bytes of the padding of a message of `len` bytes: `(55 - len) mod 64` (R169). -/
def zeroCount (len : Nat) : Nat := (119 - len % 64) % 64

/-- What is appended to a message of `len` bytes whose length field is `L` (R169). -/
def padding (len : Nat) (L : BitVec 64) : List Byte :=
  0x80 :: (List.replicate (zeroCount len) 0x00 ++ lengthBytes L)

/-- The bit length of a message, modulo 2^64 (R171; 10_state.md R24). -/
def bitLength (M : List Byte) : BitVec 64 := BitVec.ofNat 64 (8 * M.length)

/-- `P(M)`, the padded message (R169). -/
def paddedMessage (M : List Byte) : List Byte := M ++ padding M.length (bitLength M)

/-- The hash state that hashing the whole message `M` ends with: `compress*(IV, P(M))` (R169). -/
def messageHash (M : List Byte) : HashState := compressStar IV (paddedMessage M)

end Sys2Proof.Machine
end

