-- ==== Sys2Proof/Machine/Operands.lean ====
section
/-! DEFINITION. The operands: the byte count of UPDATE (30_encoding.md R75, R85) and the message bytes of a data word
(R77). INIT, FINALIZE and the illegal words have none. -/

namespace Sys2Proof.Machine

/-- The byte count `n = ARG`, unsigned and unscaled (R85). -/
def byteCount (n : BitVec 28) : Nat := n.toNat

/-- How many of a data word's lanes are message bytes when `r` are still to arrive: `min(4, r)`
(41_block_buffer.md R145). -/
def laneCount (r : Nat) : Nat := min 4 r

/-- The message bytes of a data word, lane 0 first; the other lanes are transfer padding and are ignored (R77). -/
def messageLanes (r : Nat) (b0 b1 b2 b3 : Byte) : List Byte := [b0, b1, b2, b3].take (laneCount r)

/-- `ceil(n/4)`: the data words of an UPDATE of `n` bytes (R75, R76). -/
def dataWordCount (n : Nat) : Nat := (n + 3) / 4

/-- The message bytes that `n` bytes' worth of data words carry (R77). -/
def messageOf (n : Nat) (ws : List Word) : List Byte := (ws.flatMap wordBytes).take n

end Sys2Proof.Machine
end

