-- ==== Sys2Proof/Machine/Update.lean ====
section
/-! DEFINITION. UPDATE: its command word and its data words (41_block_buffer.md R145). -/

namespace Sys2Proof.Machine

/-- The command word of UPDATE: with no bytes it answers at once, else its data words follow (R145). -/
def execUpdate (n : BitVec 28) (s : State) : Host.Outcome State Fault Refusal :=
  if byteCount n = 0 then .next (s.emitStatus (updateStatus s.closed))
  else .next (s.setDec (.data (byteCount n)))

/-- The bytes of a data word: an open core accepts them, a closed one discards them (R145; 60_exceptions.md R221). -/
def State.takeLanes (s : State) (bs : List Byte) : State := if s.closed then s else s.accept bs

/-- A data word, `r` message bytes being still to arrive (R145). `DEC = CMD` reads no data word (30_encoding.md R71). -/
def execData (b0 b1 b2 b3 : Byte) (s : State) : Host.Outcome State Fault Refusal :=
  match s.dec with
  | .cmd => .refused .dataWordOutsideUpdate
  | .data r =>
    let s' := s.takeLanes (messageLanes r b0 b1 b2 b3)
    if r - laneCount r = 0 then .next ((s'.setDec .cmd).emitStatus (updateStatus s.closed))
    else .next (s'.setDec (.data (r - laneCount r)))

end Sys2Proof.Machine
end

