-- ==== Sys2Proof/Machine/Dispatch.lean ====
section
/-! DEFINITION. One arm per instruction (43_control.md R190). -/

namespace Sys2Proof.Machine

def exec (i : Instr) (s : State) : Host.Outcome State Fault Refusal :=
  match i with
  | .init => Sys2Proof.Machine.execInit s
  | .update n => Sys2Proof.Machine.execUpdate n s
  | .finalize => Sys2Proof.Machine.execFinalize s
  | .illegalOp0 _ => Sys2Proof.Machine.execIllegalOp0 s
  | .illegalInitArg _ => Sys2Proof.Machine.execIllegalInitArg s
  | .illegalFinalizeArg _ => Sys2Proof.Machine.execIllegalFinalizeArg s
  | .illegalOp4to7 _ _ => Sys2Proof.Machine.execIllegalOp4to7 s
  | .illegalOp8toF _ _ => Sys2Proof.Machine.execIllegalOp8toF s
  | .data b0 b1 b2 b3 => Sys2Proof.Machine.execData b0 b1 b2 b3 s

end Sys2Proof.Machine
end

