-- ==== Sys2Proof/Machine/Step.lean ====
section
/-! DEFINITION. The machine step (43_control.md R190; 00_scope.md R8), and how an instruction comes to be the next one. -/

namespace Sys2Proof.Machine

/-- `step(w)` of R190: the core consumes one input word, read as `DEC` says. -/
def stepWord (w : Word) (s : State) : Host.Outcome State Fault Refusal := exec (decode s.dec w) s

/-- One step of the core with its environment: the next event of `input`. With none the core holds its state
(60_exceptions.md R235). A launch state no reset has reached is not stepped (70_reset_and_hazards.md R253). -/
def step (s : State) : Host.Outcome State Fault Refusal :=
  match s.input with
  | [] => .next s
  | .reset :: rest => .next { s with input := rest }.resetEvent
  | .take n :: rest => if s.everReset then .next ({ s with input := rest }.hostTake n) else .refused .beforeFirstReset
  | .word w :: rest =>
    if s.everReset then
      if s.hasRoom then stepWord w { s with input := rest } else .next s.waitForRoom
    else .refused .beforeFirstReset

/-- `s` with the word `w` offered next, and all that taking it needs: the core has been reset, the host has taken every
response word, and `DEC` reads the word as `decodeTableWord nbits w` does (log entry 10). -/
def State.withFetchWord (s : State) (nbits w : Nat) : State :=
  { s with
    everReset := true
    taken := s.taken ++ s.pending
    pending := []
    dec := if nbits = 0 then .data 4 else .cmd
    input := .word (BitVec.ofNat 32 w) :: s.input }

end Sys2Proof.Machine
end

