-- ==== Sys2Proof/Machine/Assembler.lean ====
section
/-! DEFINITION. The spec's own notation for word streams: statements and their words, the pseudo-instructions HASH and the
split UPDATE, and the disassembler (30_encoding.md R90 to R94). Statements are data; no text is parsed (log entry 11). -/

namespace Sys2Proof.Machine

/-- The forms of `<bytes>` (R91). -/
inductive BytesForm where
  /-- a string in double quotes, each character its ASCII byte -/
  | ascii (cs : List Char)
  /-- `hex:` and the bytes its digits spell -/
  | hex (bs : List Byte)
  /-- `rep(<byte>, <count>)` -/
  | rep (b : Byte) (count : Nat)
deriving DecidableEq, Repr

/-- The bytes a form stands for (R91). -/
def formBytes : BytesForm → List Byte
  | .ascii cs => cs.map fun c => BitVec.ofNat 8 c.toNat
  | .hex bs => bs
  | .rep b count => List.replicate count b

/-- A statement of the notation (R90, R92). -/
inductive Stmt where
  | init
  | finalize
  | update (f : BytesForm)
  | word (w : Word)
  | hash (f : BytesForm)
deriving DecidableEq, Repr

/-- Message bytes in big-endian data words, the unused trailing bytes zero (R77, R90). -/
def dataWords : List Byte → List Word
  | [] => []
  | [b0] => [be32 b0 0 0 0]
  | [b0, b1] => [be32 b0 b1 0 0]
  | [b0, b1, b2] => [be32 b0 b1 b2 0]
  | b0 :: b1 :: b2 :: b3 :: bs => be32 b0 b1 b2 b3 :: dataWords bs

/-- One UPDATE command and its data words, for at most `2^28 - 1` bytes (R90). -/
def updateWords (bs : List Byte) : List Word :=
  encode (.update (BitVec.ofNat 28 bs.length)) :: dataWords bs

/-- A message cut into pieces that one UPDATE can carry, every piece but the last full (R93); `fuel` bounds the number of
cuts. -/
def updatePieces : Nat → List Byte → List (List Byte)
  | 0, bs => [bs]
  | fuel + 1, bs =>
    if bs.length ≤ Config.maxUpd then [bs]
    else bs.take Config.maxUpd :: updatePieces fuel (bs.drop Config.maxUpd)

/-- `UPDATE <bytes>` of any length (R90, R93). -/
def assembleUpdate (bs : List Byte) : List Word := (updatePieces bs.length bs).flatMap updateWords

/-- The words of a statement (R90, R92, R93). -/
def assemble : Stmt → List Word
  | .init => [encode .init]
  | .finalize => [encode .finalize]
  | .update f => assembleUpdate (formBytes f)
  | .word w => [w]
  | .hash f => encode .init :: (assembleUpdate (formBytes f) ++ [encode .finalize])

/-- The disassembler: from a known `DEC`, each word as what it is read as, following `DEC` (R94). -/
def disassemble : Dec → List Word → List Instr
  | _, [] => []
  | d, w :: ws => decode d w :: disassemble (d.after w) ws

end Sys2Proof.Machine
end

