-- ==== Sys2Proof/Safety.lean ====
section
/-! DEFINITION. The terms claims are stated in: the invariants of 10_state.md R36, the message a state stands for, runs
over a word stream (43_control.md R212), and what the host sees (10_state.md R34). -/

namespace Sys2Proof.Machine

/-- The invariants every step keeps (R36 items 1 and 2, and the range of `DEC` of R30). -/
def State.Inv (s : State) : Prop :=
  s.buf.length ≤ 63 ∧ (s.closed = true → s.buf = []) ∧ s.dec.wf = true

/-- `M` is the message accepted since the last reset or INIT (00_scope.md R15), as R36 items 3 and 4 tie it to the
state; of a closed core, `H` is the hash of the whole message (42_finalizer.md R169). -/
def State.Represents (s : State) (M : List Byte) : Prop :=
  s.cnt = bitLength M ∧
  (s.closed = false →
    s.hash = compressStar IV (M.take (64 * (M.length / 64))) ∧ s.buf = M.drop (64 * (M.length / 64))) ∧
  (s.closed = true → s.hash = messageHash M ∧ s.buf = [])

/-- The message accepted so far after the word `w`, `M` being the message before it (R15): a data word of an open core adds
its message bytes, INIT starts anew, and nothing else changes it. -/
def messageAfter (s : State) (M : List Byte) (w : Word) : List Byte :=
  match s.dec with
  | .data r => if s.closed then M else M ++ (wordBytes w).take (laneCount r)
  | .cmd => if w = 0x10000000#32 then [] else M

/-- The core steps through a sequence of input words, in order (R190, R212): its run while the host keeps taking
responses (70_reset_and_hazards.md R263). -/
def runWords : List Word → State → Host.Outcome State Fault Refusal
  | [], s => .next s
  | w :: ws, s =>
    match stepWord w s with
    | .next t => runWords ws t
    | .fault f => .fault f
    | .refused r => .refused r

/-- The core steps through several word sequences, one after the other. -/
def runAll : List (List Word) → State → Host.Outcome State Fault Refusal
  | [], s => .next s
  | ws :: more, s =>
    match runWords ws s with
    | .next t => runAll more t
    | .fault f => .fault f
    | .refused r => .refused r

/-- A run is complete when `DEC = CMD` at its end (R212). -/
def State.complete (s : State) : Bool := s.dec == .cmd

/-- Every response word the host has been or can still be given, in order. -/
def State.responses (s : State) : List Word := s.taken ++ s.pending

/-- `H`, `BUF`, `CNT` and `CLOSED` are the same: the fields an error leaves alone (60_exceptions.md R220). -/
def State.SameHasher (s t : State) : Prop :=
  t.hash = s.hash ∧ t.buf = s.buf ∧ t.cnt = s.cnt ∧ t.closed = s.closed

/-- Two states differ at most in `H`, `BUF` and `CNT`, which no command lets the host read (10_state.md R34). -/
def State.SameButHidden (s t : State) : Prop :=
  t.closed = s.closed ∧ t.dec = s.dec ∧ t.pending = s.pending ∧ t.taken = s.taken ∧ t.input = s.input ∧
  t.everReset = s.everReset ∧ t.resets = s.resets

end Sys2Proof.Machine
end

