-- ==== Sys2Proof/Certificates/Slice0/Obligations.lean ====
section
/-! DEFINITION. The statements for the provers, from the numbered rules of spec/. An equation `exec i s = .next t` says
that the instruction completes, what it computes, and its frame: every field that `t` does not name is that of `s`. -/

open Sys2Proof Sys2Proof.Machine

/-! ## Encoding -/

/-- Encoding an instruction and decoding the word where it is read gives the instruction back, with every operand
(30_encoding.md §1 to §5). -/
def Obligations.DecodeEncodeRoundTrip : Prop :=
  ∀ (i : Instr) (d : Dec), i.wf = true → d.reads i = true → decode d (encode i) = i

/-- Every word in every decoder state is read as one well-formed instruction of the right class, and no bit of it is
dropped (R71, R79). -/
def Obligations.EncodeDecodeRoundTrip : Prop :=
  ∀ (d : Dec) (w : Word),
    (decode d w).wf = true ∧ d.reads (decode d w) = true ∧ encode (decode d w) = w

/-- INIT and FINALIZE are read from one word each, by match and mask (R73, R74). -/
def Obligations.InitAndFinalizeMatchTheirMasks : Prop :=
  encode .init = 0x10000000#32 ∧ encode .finalize = 0x30000000#32 ∧
  (∀ w : Word, decode .cmd w = .init ↔ w &&& 0xFFFFFFFF#32 = 0x10000000#32) ∧
  (∀ w : Word, decode .cmd w = .finalize ↔ w &&& 0xFFFFFFFF#32 = 0x30000000#32) ∧
  (∀ w : Word, decode .cmd w = .init → opField w = 0x1#4 ∧ argField w = 0#28) ∧
  (∀ w : Word, decode .cmd w = .finalize → opField w = 0x3#4 ∧ argField w = 0#28)

/-- UPDATE is read by match and mask; every `ARG` is legal and is the byte count, unsigned (R75, R85). -/
def Obligations.UpdateMatchesItsMaskAndCountsArg : Prop :=
  (∀ w : Word, (∃ n, decode .cmd w = .update n) ↔ w &&& 0xF0000000#32 = 0x20000000#32) ∧
  (∀ (w : Word) (n : BitVec 28), decode .cmd w = .update n →
    byteCount n = w.toNat % 2 ^ 28 ∧ commandLength (.update n) = 1 + (w.toNat % 2 ^ 28 + 3) / 4) ∧
  (∀ n : BitVec 28, encode (.update n) = 0x20000000#32 ||| n.setWidth 32)

/-- The illegal command words are exactly those of R79; each takes one word, changes nothing and answers
ILLEGAL_COMMAND. -/
def Obligations.IllegalWordsAreExactlyTheReservedOnes : Prop :=
  (∀ w : Word, (decode .cmd w).isIllegal = true ↔
    (w.toNat / 2 ^ 28 = 0 ∨ 4 ≤ w.toNat / 2 ^ 28 ∨
      ((w.toNat / 2 ^ 28 = 1 ∨ w.toNat / 2 ^ 28 = 3) ∧ w.toNat % 2 ^ 28 ≠ 0))) ∧
  (∀ w : Word, (decode .cmd w).isIllegal = false →
    decode .cmd w = .init ∨ decode .cmd w = .finalize ∨ ∃ n, decode .cmd w = .update n) ∧
  (∀ (w : Word) (s : State), s.dec = .cmd → (decode .cmd w).isIllegal = true →
    commandLength (decode .cmd w) = 1 ∧
    stepWord w s = .next { s with pending := s.pending ++ [0x00000002#32] })

/-- A word is a data word exactly when `DEC = DATA(r)`, whatever its bits; its lanes are its bytes, most significant
first (R71, R53). -/
def Obligations.WordClassFollowsTheDecoderState : Prop :=
  ∀ (w : Word) (r : Nat),
    (decode .cmd w).isData = false ∧
    ∃ b0 b1 b2 b3 : Byte, decode (.data r) w = .data b0 b1 b2 b3 ∧
      b0.toNat = w.toNat / 2 ^ 24 ∧ b1.toNat = w.toNat / 2 ^ 16 % 256 ∧
      b2.toNat = w.toNat / 2 ^ 8 % 256 ∧ b3.toNat = w.toNat % 256

/-- The message bytes that data words carry (R77). -/
def Obligations.MessageBytesArePackedBigEndian : Prop :=
  ∀ (ws : List Word) (n q k : Nat), ws.length = dataWordCount n →
    (messageOf n ws).length = n ∧
    (k ≤ 3 → 4 * q + k < n →
      (messageOf n ws)[4 * q + k]? = some ((ws.getD q 0).extractLsb' (24 - 8 * k) 8))

/-- The worked encodings of R95, in both directions. -/
def Obligations.WorkedEncodingsHold : Prop :=
  decode .cmd 0x10000000#32 = .init ∧ decode .cmd 0x30000000#32 = .finalize ∧
  decode .cmd 0x20000003#32 = .update 3 ∧
  decode .cmd 0x10000001#32 = .illegalInitArg 1 ∧ decode .cmd 0x00000000#32 = .illegalOp0 0 ∧
  decode .cmd 0x40000000#32 = .illegalOp4to7 4 0 ∧
  decode (.data 3) 0x61626300#32 = .data 0x61 0x62 0x63 0x00 ∧
  updateWords [] = [0x20000000#32] ∧
  updateWords [0x61, 0x62, 0x63] = [0x20000003#32, 0x61626300#32] ∧
  updateWords [0x61, 0x62, 0x63, 0x64] = [0x20000004#32, 0x61626364#32] ∧
  updateWords [0x61, 0x62, 0x63, 0x64, 0x65] = [0x20000005#32, 0x61626364#32, 0x65000000#32]

/-! ## Compression Engine -/

/-- Bit by bit: `rotr` (R104) and the logical shift (R105). -/
def Obligations.RotateAndShiftMoveBits : Prop :=
  ∀ (x : Word) (n i : Nat), 0 < n → n < 32 → i < 32 →
    (rotr x n).getLsbD i = x.getLsbD ((i + n) % 32) ∧
    (shr x n).getLsbD i = (if i + n ≤ 31 then x.getLsbD (i + n) else false)

/-- Bit by bit: the four sigma functions (R107 to R110). -/
def Obligations.SigmaFunctionsMixRotatedBits : Prop :=
  ∀ (x : Word) (i : Nat), i < 32 →
    (smallSigma0 x).getLsbD i =
      (x.getLsbD ((i + 7) % 32) ^^ x.getLsbD ((i + 18) % 32) ^^ (if i + 3 ≤ 31 then x.getLsbD (i + 3) else false)) ∧
    (smallSigma1 x).getLsbD i =
      (x.getLsbD ((i + 17) % 32) ^^ x.getLsbD ((i + 19) % 32) ^^ (if i + 10 ≤ 31 then x.getLsbD (i + 10) else false)) ∧
    (bigSigma0 x).getLsbD i =
      (x.getLsbD ((i + 2) % 32) ^^ x.getLsbD ((i + 13) % 32) ^^ x.getLsbD ((i + 22) % 32)) ∧
    (bigSigma1 x).getLsbD i =
      (x.getLsbD ((i + 6) % 32) ^^ x.getLsbD ((i + 11) % 32) ^^ x.getLsbD ((i + 25) % 32))

/-- Bit by bit: `Ch` selects and `Maj` takes the majority (R111, R112). -/
def Obligations.ChooseSelectsAndMajorityVotes : Prop :=
  ∀ (x y z : Word) (i : Nat), i < 32 →
    (choose x y z).getLsbD i = (if x.getLsbD i then y.getLsbD i else z.getLsbD i) ∧
    (majority x y z).getLsbD i =
      decide (2 ≤ (x.getLsbD i).toNat + (y.getLsbD i).toNat + (z.getLsbD i).toNat)

/-- The message schedule: 64 words, the first 16 from the block, the others by the recurrence; and the rule's corner case
and worked example (R113, R50). -/
def Obligations.ScheduleFollowsTheRecurrence : Prop :=
  (∀ B : List Byte, B.length = 64 →
    (schedule B).length = 64 ∧
    (∀ t, t < 16 →
      (schedule B)[t]? = some (B.getD (4 * t) 0 ++ B.getD (4 * t + 1) 0 ++ B.getD (4 * t + 2) 0 ++ B.getD (4 * t + 3) 0)) ∧
    (∀ t, 16 ≤ t → t < 64 →
      (schedule B)[t]? = some (smallSigma1 ((schedule B).getD (t - 2) 0) + (schedule B).getD (t - 7) 0
        + smallSigma0 ((schedule B).getD (t - 15) 0) + (schedule B).getD (t - 16) 0))) ∧
  schedule (List.replicate 64 0) = List.replicate 64 0 ∧
  (let W := schedule ([0x61, 0x62, 0x63, 0x80] ++ List.replicate 59 0 ++ [0x18])
   W[0]? = some 0x61626380#32 ∧ W[15]? = some 0x00000018#32 ∧ W[16]? = some 0x61626380#32 ∧
   W[17]? = some 0x000f0000#32 ∧ W[18]? = some 0x7da86405#32 ∧ W[63]? = some 0x12b1edeb#32)

/-- `compress` against the rules as equations (R113 to R117, R120): for any schedule and any sequence of working registers
that meet them, the result is the final addition after round 63. -/
def Obligations.CompressComputesTheSixtyFourRounds : Prop :=
  ∀ (H : HashState) (B : List Byte) (W : Nat → Word) (v : Nat → Working), B.length = 64 →
    (∀ t, t < 16 →
      W t = B.getD (4 * t) 0 ++ B.getD (4 * t + 1) 0 ++ B.getD (4 * t + 2) 0 ++ B.getD (4 * t + 3) 0) →
    (∀ t, 16 ≤ t → t < 64 →
      W t = smallSigma1 (W (t - 2)) + W (t - 7) + smallSigma0 (W (t - 15)) + W (t - 16)) →
    v 0 = ⟨H.h0, H.h1, H.h2, H.h3, H.h4, H.h5, H.h6, H.h7⟩ →
    (∀ t, t < 64 →
      let T1 := (v t).h + bigSigma1 (v t).e + choose (v t).e (v t).f (v t).g + roundConstants.getD t 0 + W t
      let T2 := bigSigma0 (v t).a + majority (v t).a (v t).b (v t).c
      v (t + 1) = ⟨T1 + T2, (v t).a, (v t).b, (v t).c, (v t).d + T1, (v t).e, (v t).f, (v t).g⟩) →
    compress H B = ⟨H.h0 + (v 64).a, H.h1 + (v 64).b, H.h2 + (v 64).c, H.h3 + (v 64).d,
      H.h4 + (v 64).e, H.h5 + (v 64).f, H.h6 + (v 64).g, H.h7 + (v 64).h⟩

/-- The corner cases and the worked example of R120. -/
def Obligations.CompressWorkedValuesHold : Prop :=
  compress IV ([0x61, 0x62, 0x63, 0x80] ++ List.replicate 59 0 ++ [0x18]) =
    ⟨0xba7816bf, 0x8f01cfea, 0x414140de, 0x5dae2223, 0xb00361a3, 0x96177a9c, 0xb410ff61, 0xf20015ad⟩ ∧
  compress IV (List.replicate 64 0) =
    ⟨0xda5698be, 0x17b9b469, 0x62335799, 0x779fbeca, 0x8ce5d491, 0xc0d26243, 0xbafef9ea, 0x1837a9d8⟩ ∧
  compress ⟨0, 0, 0, 0, 0, 0, 0, 0⟩ (List.replicate 64 0) =
    ⟨0x7ca51614, 0x425c3ba8, 0xce54dd2f, 0xc2020ae7, 0xb6e574d1, 0x98136d0f, 0xae7e26cc, 0xbf0be7a6⟩ ∧
  compress ⟨0xffffffff, 0xffffffff, 0xffffffff, 0xffffffff, 0xffffffff, 0xffffffff, 0xffffffff, 0xffffffff⟩
      (List.replicate 64 0xff) =
    ⟨0x0598127a, 0xaf11706e, 0x77401fff, 0xd730c549, 0x0b84c867, 0xa98c6ca3, 0xd7f3c0f9, 0x06a78b79⟩

/-- `compress*` folds `compress` over the blocks in order (R121). -/
def Obligations.CompressStarFoldsTheBlocks : Prop :=
  ∀ (H : HashState), compressStar H [] = H ∧
    ∀ (B S : List Byte), B.length = 64 → S.length % 64 = 0 →
      compressStar H (B ++ S) = compressStar (compress H B) S

/-! ## Block Buffer and UPDATE -/

/-- `feed_byte`: it buffers the byte, or flushes the block the byte completes; nothing else changes (R140). -/
def Obligations.FeedByteBuffersOrFlushes : Prop :=
  ∀ (s : State) (b : Byte),
    (s.buf.length < 63 → s.feedByte b = { s with buf := s.buf ++ [b] }) ∧
    (s.buf.length = 63 → s.feedByte b = { s with hash := compress s.hash (s.buf ++ [b]), buf := [] })

/-- `feed(s)`: the whole blocks of `BUF ++ s` are compressed, in as many flushes, and the rest is buffered (R143). -/
def Obligations.FeedCompressesEveryWholeBlock : Prop :=
  ∀ (s : State) (bs : List Byte), s.buf.length ≤ 63 →
    let q := s.buf.length + bs.length
    s.feed bs = { s with
      hash := compressStar s.hash ((s.buf ++ bs).take (64 * (q / 64)))
      buf := (s.buf ++ bs).drop (64 * (q / 64)) } ∧
    (s.feed bs).buf.length = q % 64 ∧
    (s.feed bs).hash = compressBlocks (q / 64) s.hash (s.buf ++ bs)

/-- The command word of UPDATE (R145): with no bytes it answers at once and only answers; with `n` bytes it only sets
`DEC`. R145 gives the step where `DEC = CMD`; that the meaning answers alike in every other state is the MODEL's choice
(log entry 14). -/
def Obligations.UpdateCommandAnswersOrOpensData : Prop :=
  ∀ (n : BitVec 28) (s : State),
    (n = 0 → s.closed = false → exec (.update n) s = .next { s with pending := s.pending ++ [0x00000000#32] }) ∧
    (n = 0 → s.closed = true → exec (.update n) s = .next { s with pending := s.pending ++ [0x00000001#32] }) ∧
    (n ≠ 0 → exec (.update n) s = .next { s with dec := .data n.toNat })

/-- A data word of an open core (R145, R144, R141): its message bytes enter the buffer, a block that fills is compressed in
the same step, the counter grows by 8 a byte, and the last data word answers OK. -/
def Obligations.DataWordOfOpenCoreIsAccepted : Prop :=
  ∀ (b0 b1 b2 b3 : Byte) (s : State) (r : Nat), s.dec = .data r → s.closed = false → s.buf.length ≤ 63 →
    let bs := [b0, b1, b2, b3].take (min 4 r)
    let all := s.buf ++ bs
    exec (.data b0 b1 b2 b3) s = .next { s with
      hash := if 64 ≤ all.length then compress s.hash (all.take 64) else s.hash
      buf := if 64 ≤ all.length then all.drop 64 else all
      cnt := s.cnt + BitVec.ofNat 64 (8 * bs.length)
      dec := if r ≤ 4 then .cmd else .data (r - 4)
      pending := if r ≤ 4 then s.pending ++ [0x00000000#32] else s.pending }

/-- A data word of a closed core is discarded; the last one answers ALREADY_FINALIZED (R145, R221). -/
def Obligations.DataWordOfClosedCoreIsDiscarded : Prop :=
  ∀ (b0 b1 b2 b3 : Byte) (s : State) (r : Nat), s.dec = .data r → s.closed = true →
    exec (.data b0 b1 b2 b3) s = .next { s with
      dec := if r ≤ 4 then .cmd else .data (r - 4)
      pending := if r ≤ 4 then s.pending ++ [0x00000001#32] else s.pending }

/-- The meaning of a data word stops by name when it is asked for while `DEC = CMD`, which R71 rules out of every step. The
MODEL's choice (log entry 8). -/
def Obligations.DataWordOutsideUpdateIsRefused : Prop :=
  ∀ (b0 b1 b2 b3 : Byte) (s : State), s.dec = .cmd →
    exec (.data b0 b1 b2 b3) s = .refused .dataWordOutsideUpdate

/-- A whole UPDATE, its command word and `ceil(n/4)` data words of any bits: an open core feeds the `n` message bytes,
counts `8n` bits and answers OK; a closed one discards them and answers ALREADY_FINALIZED (R145, R221). -/
def Obligations.UpdateRunFeedsItsMessage : Prop :=
  ∀ (s : State) (n : BitVec 28) (ws : List Word), s.dec = .cmd → ws.length = dataWordCount n.toNat →
    (s.closed = false → s.buf.length ≤ 63 →
      runWords (encode (.update n) :: ws) s = .next { s.feed (messageOf n.toNat ws) with
        cnt := s.cnt + BitVec.ofNat 64 (8 * n.toNat)
        pending := s.pending ++ [0x00000000#32] }) ∧
    (s.closed = true →
      runWords (encode (.update n) :: ws) s = .next { s with pending := s.pending ++ [0x00000001#32] })

/-- Chunk-boundary independence: the pieces of a message, one UPDATE each, leave the core as one feed of their
concatenation does, with one OK a piece (R146). -/
def Obligations.ChunkBoundariesDoNotMatter : Prop :=
  ∀ (s : State) (ps : List (List Byte)), s.dec = .cmd → s.closed = false → s.buf.length ≤ 63 →
    (∀ p ∈ ps, p.length ≤ 2 ^ 28 - 1) →
    runAll (ps.map updateWords) s = .next { s.feed ps.flatten with
      cnt := s.cnt + BitVec.ofNat 64 (8 * ps.flatten.length)
      pending := s.pending ++ List.replicate ps.length 0x00000000#32 }

/-! ## Finalizer and FINALIZE -/

/-- The padding fills whole blocks; its zero fill is that of the table of R170. -/
def Obligations.PaddingFillsWholeBlocks : Prop :=
  ∀ (p : Nat) (L : BitVec 64),
    (p + (padding p L).length) % 64 = 0 ∧ (padding p L).head? = some 0x80 ∧
    (padding p L).length = 1 + zeroCount p + 8 ∧
    (∀ k, 1 ≤ k → k < 1 + zeroCount p → (padding p L)[k]? = some 0x00) ∧
    zeroCount p = if p % 64 ≤ 55 then 55 - p % 64 else 119 - p % 64

/-- The length field is the last 8 bytes of the last block, big-endian (R51). -/
def Obligations.LengthFieldEndsTheLastBlock : Prop :=
  ∀ (bs : List Byte) (L : BitVec 64) (j : Nat), j < 8 →
    let P := bs ++ padding bs.length L
    (((P.drop (P.length - 64))[56 + j]?).map BitVec.toNat) = some (L.toNat / 2 ^ (56 - 8 * j) % 256)

/-- FINALIZE (R166, R161 to R164): an open core pads with the latched length, compresses, closes and keeps `CNT`; a closed
one changes nothing; both answer OK and the eight digest words. That the meaning answers alike where `DEC` is not `CMD` is
the MODEL's choice (log entry 14). -/
def Obligations.FinalizePadsClosesAndEmitsTheDigest : Prop :=
  ∀ (s : State),
    (s.closed = false → s.buf.length ≤ 63 →
      exec .finalize s = .next { s with
        hash := compressStar s.hash (s.buf ++ padding s.buf.length s.cnt)
        buf := []
        closed := true
        pending := s.pending ++
          0x00000000#32 :: digestWords (compressStar s.hash (s.buf ++ padding s.buf.length s.cnt)) }) ∧
    (s.closed = true →
      exec .finalize s = .next { s with pending := s.pending ++
        [0x00000000#32, s.hash.h0, s.hash.h1, s.hash.h2, s.hash.h3, s.hash.h4, s.hash.h5, s.hash.h6, s.hash.h7] })

/-- FINALIZE compresses one block when at most 55 bytes are buffered, else two (R165). Where `DEC` is not `CMD` this is the
MODEL's choice (log entry 14). -/
def Obligations.FinalizeCompressesOneOrTwoBlocks : Prop :=
  ∀ (s : State), s.closed = false → s.buf.length ≤ 63 →
    ∃ t, exec .finalize s = .next t ∧
      let P := s.buf ++ padding s.buf.length s.cnt
      (s.buf.length ≤ 55 → P.length = 64 ∧ t.hash = compress s.hash P) ∧
      (56 ≤ s.buf.length → P.length = 128 ∧ t.hash = compress (compress s.hash (P.take 64)) (P.drop 64))

/-- FINALIZE is idempotent: it answers with the state it leaves, and a second one answers the same nine words and changes
nothing else (R60, R28). Where `DEC` is not `CMD` this is the MODEL's choice (log entry 14). -/
def Obligations.FinalizeIsIdempotent : Prop :=
  ∀ (s t : State), exec .finalize s = .next t →
    ∃ nine : List Word, nine.length = 9 ∧ t.closed = true ∧ t.pending = s.pending ++ nine ∧
      exec .finalize t = .next { t with pending := t.pending ++ nine }

/-- The digest is 32 bytes, the state words serialised big-endian (R52). -/
def Obligations.DigestBytesAreBigEndian : Prop :=
  ∀ (H : HashState), (digestBytes H).length = 32 ∧
    ∀ i j, i < 8 → j < 4 →
      ((digestBytes H)[4 * i + j]?).map BitVec.toNat =
        some (((digestWords H).getD i 0).toNat / 2 ^ (24 - 8 * j) % 256)

/-- A FINALIZE of a core that stands for the message `M` answers the hash of the padded message, whether it closes the core
or finds it closed (R169, R28). Where `DEC` is not `CMD` this is the MODEL's choice (log entry 14). -/
def Obligations.FinalizeEmitsTheMessageDigest : Prop :=
  ∀ (s : State) (M : List Byte), s.Represents M →
    (paddedMessage M).length % 64 = 0 ∧
    ∃ t, exec .finalize s = .next t ∧ t.Represents M ∧ t.closed = true ∧
      t.hash = compressStar IV (M ++ 0x80 :: (List.replicate ((119 - M.length % 64) % 64) 0x00
        ++ lengthBytes (BitVec.ofNat 64 (8 * M.length)))) ∧
      t.pending = s.pending ++ 0x00000000#32 :: digestWords t.hash

/-- The pseudo-instruction HASH, from any state between commands: OK from INIT, OK from UPDATE (one for each command a longer
update is split into), then OK and the digest of its bytes (R92, R93). -/
def Obligations.HashPseudoInstructionDigestsItsBytes : Prop :=
  ∀ (s : State) (f : BytesForm), s.dec = .cmd →
    let M := formBytes f
    let updates := (updatePieces M.length M).length
    (M.length ≤ 2 ^ 28 - 1 → updates = 1) ∧
    runWords (assemble (.hash f)) s = .next { s with
      hash := messageHash M
      buf := []
      cnt := bitLength M
      closed := true
      pending := s.pending ++ (0x00000000#32 :: List.replicate updates 0x00000000#32
        ++ 0x00000000#32 :: digestWords (messageHash M)) }

/-- The digests of "abc" and of the empty message (95_test_vectors.md V1, V2; 90_conflicts.md C1). -/
def Obligations.PublishedDigestsComeOut : Prop :=
  messageHash [0x61, 0x62, 0x63] =
    ⟨0xba7816bf, 0x8f01cfea, 0x414140de, 0x5dae2223, 0xb00361a3, 0x96177a9c, 0xb410ff61, 0xf20015ad⟩ ∧
  messageHash [] =
    ⟨0xe3b0c442, 0x98fc1c14, 0x9afbf4c8, 0x996fb924, 0x27ae41e4, 0x649b934c, 0xa495991b, 0x7852b855⟩

/-! ## Control: INIT, illegal words, the step -/

/-- INIT starts a fresh message and answers OK (R200, where `DEC = CMD`). That the meaning answers alike, and keeps `DEC`, in
every other state is the MODEL's choice (log entry 14). -/
def Obligations.InitStartsAFreshMessage : Prop :=
  ∀ (s : State), exec .init s = .next { s with
    hash := ⟨0x6a09e667, 0xbb67ae85, 0x3c6ef372, 0xa54ff53a, 0x510e527f, 0x9b05688c, 0x1f83d9ab, 0x5be0cd19⟩
    buf := []
    cnt := 0
    closed := false
    pending := s.pending ++ [0x00000000#32] }

/-- Each of the five illegal command words completes, answers ILLEGAL_COMMAND and changes nothing else (R205, where
`DEC = CMD`). That the meanings answer alike in every other state is the MODEL's choice (log entry 14). -/
def Obligations.IllegalCommandsOnlyReport : Prop :=
  ∀ (s : State) (op : BitVec 4) (arg : BitVec 28),
    exec (.illegalOp0 arg) s = .next { s with pending := s.pending ++ [0x00000002#32] } ∧
    exec (.illegalInitArg arg) s = .next { s with pending := s.pending ++ [0x00000002#32] } ∧
    exec (.illegalFinalizeArg arg) s = .next { s with pending := s.pending ++ [0x00000002#32] } ∧
    exec (.illegalOp4to7 op arg) s = .next { s with pending := s.pending ++ [0x00000002#32] } ∧
    exec (.illegalOp8toF op arg) s = .next { s with pending := s.pending ++ [0x00000002#32] }

/-- A step runs the instruction the decoder reads from the word offered, with that word taken from the input; when the host
has taken every response there is room for it. That a word waits in `input` is the MODEL's form (log entry 1). -/
def Obligations.StepRunsTheDecodedInstruction : Prop :=
  ∀ (s : State) (w : Word) (rest : List Input), s.input = .word w :: rest → s.everReset = true →
    (s.hasRoom = true → step s = exec (decode s.dec w) { s with input := rest }) ∧
    (s.pending = [] → s.hasRoom = true)

/-- Backpressure affects only when a word is taken, never what it does (R263). With room the word offered is run. Without,
responses are not yet taken, every word offered before the host's next act keeps its place, and that act alone happens: the
taking of its `n` responses, or the reset; with no such act nothing changes. That the host's next act goes before the
waiting words is the MODEL's choice (log entry 5), as is that they stay offered across a reset (log entry 18) and the forms
`input`, `taken` (log entries 1 and 3). -/
def Obligations.OfferedWordRunsOrWaits : Prop :=
  ∀ (s : State) (w : Word) (rest : List Input), s.input = .word w :: rest → s.everReset = true →
    let waiting := s.input.takeWhile Input.isWord
    (s.hasRoom = true ∧ step s = exec (decode s.dec w) { s with input := rest }) ∨
    (s.hasRoom = false ∧ s.pending ≠ [] ∧ waiting.head? = some (.word w) ∧
      ((s.input = waiting ∧ step s = .next s) ∨
       (∃ n later, s.input = waiting ++ .take n :: later ∧
         step s = .next { s with
           input := waiting ++ later
           taken := s.taken ++ s.pending.take n
           pending := s.pending.drop n }) ∨
       (∃ later, s.input = waiting ++ .reset :: later ∧
         step s = .next { s with input := waiting ++ later }.resetEvent)))

/-- With no event the core holds all its state; the host taking responses changes no state of the core, and gives the host
the oldest words in order (R235, R63). -/
def Obligations.CoreHoldsItsStateBetweenWords : Prop :=
  ∀ (s : State),
    (s.input = [] → step s = .next s) ∧
    (∀ (n : Nat) (rest : List Input), s.input = .take n :: rest → s.everReset = true →
      step s = .next { s with
        input := rest
        taken := s.taken ++ s.pending.take n
        pending := s.pending.drop n })

/-- The reset event, from any state, also in the middle of an UPDATE: the reset state, no word emitted (R250, R251), and of
the words not yet taken a prefix stays (R252). The forms `pending` and `taken`, `everReset`, and that the words offered after
the reset stay offered, are the MODEL's (log entries 3, 4, 6 and 18). -/
def Obligations.ResetEventRestoresTheResetState : Prop :=
  ∀ (s : State) (rest : List Input), s.input = .reset :: rest →
    ∃ t, step s = .next t ∧
      t.hash = ⟨0x6a09e667, 0xbb67ae85, 0x3c6ef372, 0xa54ff53a, 0x510e527f, 0x9b05688c, 0x1f83d9ab, 0x5be0cd19⟩ ∧
      t.buf = [] ∧ t.cnt = 0 ∧ t.closed = false ∧ t.dec = .cmd ∧
      t.taken = s.taken ∧ (∃ k, t.pending = s.pending.take k) ∧ t.input = rest ∧ t.everReset = true

/-- The state after reset, and that INIT between commands leaves the same (R35). -/
def Obligations.ResetAndInitLeaveTheSameState : Prop :=
  State.reset.hash = ⟨0x6a09e667, 0xbb67ae85, 0x3c6ef372, 0xa54ff53a, 0x510e527f, 0x9b05688c, 0x1f83d9ab, 0x5be0cd19⟩ ∧
  State.reset.buf = [] ∧ State.reset.cnt = 0 ∧ State.reset.closed = false ∧ State.reset.dec = .cmd ∧
  ∀ s : State, s.dec = .cmd → ∃ t, exec .init s = .next t ∧ State.reset.SameHasher t ∧ t.dec = State.reset.dec

/-- A launch state that no reset has reached is not stepped, but for its reset (R253). -/
def Obligations.RunsMustBeginWithReset : Prop :=
  ∀ (s : State), s.everReset = false →
    (∀ w rest, s.input = .word w :: rest → step s = .refused .beforeFirstReset) ∧
    (∀ n rest, s.input = .take n :: rest → step s = .refused .beforeFirstReset)

/-! ## Whole-machine rules -/

/-- The invariants hold after reset, with the empty message (R36, R35). -/
def Obligations.ResetMeetsTheInvariants : Prop :=
  State.reset.Inv ∧ State.reset.Represents []

/-- Every step keeps the invariants: at most 63 bytes buffered, none while closed, and a legal `DEC` (R36, R30). -/
def Obligations.EveryStepKeepsTheInvariants : Prop :=
  ∀ (s t : State), s.Inv → step s = .next t → t.Inv

/-- The step on a word is total: from every state that meets the invariants and for every word there is a next state, 0, 1
or 9 response words are emitted, and the invariants still hold (R191). -/
def Obligations.StepIsTotalOnWords : Prop :=
  ∀ (s : State) (w : Word), s.Inv →
    ∃ t vs, stepWord w s = .next t ∧ t.Inv ∧ t.pending = s.pending ++ vs ∧
      (vs.length = 0 ∨ vs.length = 1 ∨ vs.length = 9)

/-- How many response words each step emits (R192), the first of them a status word (R80, R81). -/
def Obligations.ResponseCountFollowsTheWord : Prop :=
  ∀ (s t : State) (w : Word), stepWord w s = .next t →
    ∃ vs, t.pending = s.pending ++ vs ∧
      (∀ r, s.dec = .data r → vs.length = if r ≤ 4 then 1 else 0) ∧
      (∀ n, decode s.dec w = .update n → vs.length = if n = 0 then 1 else 0) ∧
      (decode s.dec w = .finalize → vs.length = 9) ∧
      (decode s.dec w = .init ∨ (decode s.dec w).isIllegal = true → vs.length = 1) ∧
      (∀ v, vs.head? = some v → v = 0x00000000#32 ∨ v = 0x00000001#32 ∨ v = 0x00000002#32)

/-- Every step on a word keeps the invariants and the tie between the state and the message accepted so far (R36). -/
def Obligations.EveryStepKeepsTheMessage : Prop :=
  ∀ (s : State) (M : List Byte) (w : Word), s.Inv → s.Represents M →
    ∃ t, stepWord w s = .next t ∧ t.Inv ∧ t.Represents (messageAfter s M w)

/-- While the core is closed no word but an INIT command changes `H`, `BUF`, `CNT` or `CLOSED`: the cached digest stays
(R27, R28). -/
def Obligations.OnlyInitDisturbsAClosedCore : Prop :=
  ∀ (s t : State) (w : Word), s.closed = true → decode s.dec w ≠ .init → stepWord w s = .next t →
    s.SameHasher t

/-- `DEC` after a run depends on `DEC` and the words alone, so a disassembler can follow it (R30, R94). -/
def Obligations.DecoderStateFollowsTheWordsAlone : Prop :=
  ∀ (ws : List Word) (s t : State), runWords ws s = .next t → t.dec = ws.foldl Dec.after s.dec

/-- No control decision depends on the value of a message byte (R196). -/
def Obligations.ControlIgnoresMessageBytes : Prop :=
  ∀ (s t t' : State) (w w' : Word) (r : Nat), s.dec = .data r →
    stepWord w s = .next t → stepWord w' s = .next t' →
    t.dec = t'.dec ∧ t.closed = t'.closed ∧ t.cnt = t'.cnt ∧ t.pending = t'.pending ∧ t.buf.length = t'.buf.length

/-- `H`, `BUF` and `CNT` stay hidden: of two states that differ in nothing else, no word but FINALIZE makes the host see
a difference (R34). -/
def Obligations.HiddenStateShowsOnlyThroughFinalize : Prop :=
  ∀ (s s' : State) (w : Word), s.SameButHidden s' → decode s.dec w ≠ .finalize →
    ∃ t t', stepWord w s = .next t ∧ stepWord w s' = .next t' ∧ t.SameButHidden t'

/-- A step that performs no reset loses and reorders no response word, whatever the environment does later (R263, R63). The
form `taken` is the MODEL's (log entry 3), and that `resets` counts the resets (log entry 4). -/
def Obligations.ResponsesAreNeverDropped : Prop :=
  ∀ (s t : State), step s = .next t → t.resets = s.resets → s.responses <+: t.responses

/-! ## Notation -/

/-- An UPDATE of any length is split into full pieces and a last one, and runs as one feed of all its bytes with one OK a
command (R93). -/
def Obligations.LongUpdateIsSplitExactly : Prop :=
  ∀ (bs : List Byte),
    let ps := updatePieces bs.length bs
    ps.flatten = bs ∧ (∀ p ∈ ps, p.length ≤ 2 ^ 28 - 1) ∧
    (∀ i, i + 1 < ps.length → (ps.getD i []).length = 2 ^ 28 - 1) ∧
    (2 ^ 28 - 1 < bs.length → ps.length = (bs.length + (2 ^ 28 - 2)) / (2 ^ 28 - 1) ∧ ∀ p ∈ ps, 0 < p.length) ∧
    ∀ s : State, s.dec = .cmd → s.closed = false → s.buf.length ≤ 63 →
      runWords (assembleUpdate bs) s = .next { s.feed bs with
        cnt := s.cnt + BitVec.ofNat 64 (8 * bs.length)
        pending := s.pending ++ List.replicate ps.length 0x00000000#32 }

/-- The disassembler reads an assembled UPDATE back: the command, then its data words, and `DEC` is `CMD` again (R94). -/
def Obligations.DisassemblerFollowsAnUpdate : Prop :=
  ∀ (bs : List Byte), bs.length ≤ 2 ^ 28 - 1 →
    disassemble .cmd (updateWords bs) = .update (BitVec.ofNat 28 bs.length) :: (dataWords bs).map decodeData ∧
    (updateWords bs).foldl Dec.after .cmd = .cmd ∧
    (updateWords bs).length = commandLength (.update (BitVec.ofNat 28 bs.length))
end

