-- ==== Sys2Proof/Laws/State.lean ====
section
/-! SUPPORT. What each update of State leaves in each field, one lemma per field per update, all true by unfolding. -/

namespace Sys2Proof.Machine

variable (s : State)

@[simp] theorem State.emit_hash (v : Word) : (s.emit v).hash = s.hash := rfl
@[simp] theorem State.emit_buf (v : Word) : (s.emit v).buf = s.buf := rfl
@[simp] theorem State.emit_cnt (v : Word) : (s.emit v).cnt = s.cnt := rfl
@[simp] theorem State.emit_closed (v : Word) : (s.emit v).closed = s.closed := rfl
@[simp] theorem State.emit_dec (v : Word) : (s.emit v).dec = s.dec := rfl
@[simp] theorem State.emit_pending (v : Word) : (s.emit v).pending = s.pending ++ [v] := rfl
@[simp] theorem State.emit_taken (v : Word) : (s.emit v).taken = s.taken := rfl
@[simp] theorem State.emit_input (v : Word) : (s.emit v).input = s.input := rfl
@[simp] theorem State.emit_everReset (v : Word) : (s.emit v).everReset = s.everReset := rfl
@[simp] theorem State.emit_resets (v : Word) : (s.emit v).resets = s.resets := rfl

@[simp] theorem State.emitAll_hash (vs : List Word) : (s.emitAll vs).hash = s.hash := rfl
@[simp] theorem State.emitAll_buf (vs : List Word) : (s.emitAll vs).buf = s.buf := rfl
@[simp] theorem State.emitAll_cnt (vs : List Word) : (s.emitAll vs).cnt = s.cnt := rfl
@[simp] theorem State.emitAll_closed (vs : List Word) : (s.emitAll vs).closed = s.closed := rfl
@[simp] theorem State.emitAll_dec (vs : List Word) : (s.emitAll vs).dec = s.dec := rfl
@[simp] theorem State.emitAll_pending (vs : List Word) : (s.emitAll vs).pending = s.pending ++ vs := rfl
@[simp] theorem State.emitAll_taken (vs : List Word) : (s.emitAll vs).taken = s.taken := rfl
@[simp] theorem State.emitAll_input (vs : List Word) : (s.emitAll vs).input = s.input := rfl
@[simp] theorem State.emitAll_everReset (vs : List Word) : (s.emitAll vs).everReset = s.everReset := rfl
@[simp] theorem State.emitAll_resets (vs : List Word) : (s.emitAll vs).resets = s.resets := rfl

@[simp] theorem State.emitStatus_hash (st : Status) : (s.emitStatus st).hash = s.hash := rfl
@[simp] theorem State.emitStatus_buf (st : Status) : (s.emitStatus st).buf = s.buf := rfl
@[simp] theorem State.emitStatus_cnt (st : Status) : (s.emitStatus st).cnt = s.cnt := rfl
@[simp] theorem State.emitStatus_closed (st : Status) : (s.emitStatus st).closed = s.closed := rfl
@[simp] theorem State.emitStatus_dec (st : Status) : (s.emitStatus st).dec = s.dec := rfl
@[simp] theorem State.emitStatus_pending (st : Status) : (s.emitStatus st).pending = s.pending ++ [statusWord st] := rfl
@[simp] theorem State.emitStatus_taken (st : Status) : (s.emitStatus st).taken = s.taken := rfl
@[simp] theorem State.emitStatus_input (st : Status) : (s.emitStatus st).input = s.input := rfl
@[simp] theorem State.emitStatus_everReset (st : Status) : (s.emitStatus st).everReset = s.everReset := rfl
@[simp] theorem State.emitStatus_resets (st : Status) : (s.emitStatus st).resets = s.resets := rfl

@[simp] theorem State.reportError_hash (st : Status) : (s.reportError st).hash = s.hash := rfl
@[simp] theorem State.reportError_buf (st : Status) : (s.reportError st).buf = s.buf := rfl
@[simp] theorem State.reportError_cnt (st : Status) : (s.reportError st).cnt = s.cnt := rfl
@[simp] theorem State.reportError_closed (st : Status) : (s.reportError st).closed = s.closed := rfl
@[simp] theorem State.reportError_dec (st : Status) : (s.reportError st).dec = s.dec := rfl
@[simp] theorem State.reportError_pending (st : Status) : (s.reportError st).pending = s.pending ++ [statusWord st] := rfl
@[simp] theorem State.reportError_taken (st : Status) : (s.reportError st).taken = s.taken := rfl
@[simp] theorem State.reportError_input (st : Status) : (s.reportError st).input = s.input := rfl
@[simp] theorem State.reportError_everReset (st : Status) : (s.reportError st).everReset = s.everReset := rfl
@[simp] theorem State.reportError_resets (st : Status) : (s.reportError st).resets = s.resets := rfl

@[simp] theorem State.setDec_hash (d : Dec) : (s.setDec d).hash = s.hash := rfl
@[simp] theorem State.setDec_buf (d : Dec) : (s.setDec d).buf = s.buf := rfl
@[simp] theorem State.setDec_cnt (d : Dec) : (s.setDec d).cnt = s.cnt := rfl
@[simp] theorem State.setDec_closed (d : Dec) : (s.setDec d).closed = s.closed := rfl
@[simp] theorem State.setDec_dec (d : Dec) : (s.setDec d).dec = d := rfl
@[simp] theorem State.setDec_pending (d : Dec) : (s.setDec d).pending = s.pending := rfl
@[simp] theorem State.setDec_taken (d : Dec) : (s.setDec d).taken = s.taken := rfl
@[simp] theorem State.setDec_input (d : Dec) : (s.setDec d).input = s.input := rfl
@[simp] theorem State.setDec_everReset (d : Dec) : (s.setDec d).everReset = s.everReset := rfl
@[simp] theorem State.setDec_resets (d : Dec) : (s.setDec d).resets = s.resets := rfl

@[simp] theorem State.countByte_hash : s.countByte.hash = s.hash := rfl
@[simp] theorem State.countByte_buf : s.countByte.buf = s.buf := rfl
@[simp] theorem State.countByte_cnt : s.countByte.cnt = s.cnt + 8 := rfl
@[simp] theorem State.countByte_closed : s.countByte.closed = s.closed := rfl
@[simp] theorem State.countByte_dec : s.countByte.dec = s.dec := rfl
@[simp] theorem State.countByte_pending : s.countByte.pending = s.pending := rfl
@[simp] theorem State.countByte_taken : s.countByte.taken = s.taken := rfl
@[simp] theorem State.countByte_input : s.countByte.input = s.input := rfl
@[simp] theorem State.countByte_everReset : s.countByte.everReset = s.everReset := rfl
@[simp] theorem State.countByte_resets : s.countByte.resets = s.resets := rfl

@[simp] theorem State.close_hash : s.close.hash = s.hash := rfl
@[simp] theorem State.close_buf : s.close.buf = s.buf := rfl
@[simp] theorem State.close_cnt : s.close.cnt = s.cnt := rfl
@[simp] theorem State.close_closed : s.close.closed = true := rfl
@[simp] theorem State.close_dec : s.close.dec = s.dec := rfl
@[simp] theorem State.close_pending : s.close.pending = s.pending := rfl
@[simp] theorem State.close_taken : s.close.taken = s.taken := rfl
@[simp] theorem State.close_input : s.close.input = s.input := rfl
@[simp] theorem State.close_everReset : s.close.everReset = s.everReset := rfl
@[simp] theorem State.close_resets : s.close.resets = s.resets := rfl

@[simp] theorem State.freshHasher_hash : s.freshHasher.hash = IV := rfl
@[simp] theorem State.freshHasher_buf : s.freshHasher.buf = [] := rfl
@[simp] theorem State.freshHasher_cnt : s.freshHasher.cnt = 0 := rfl
@[simp] theorem State.freshHasher_closed : s.freshHasher.closed = false := rfl
@[simp] theorem State.freshHasher_dec : s.freshHasher.dec = s.dec := rfl
@[simp] theorem State.freshHasher_pending : s.freshHasher.pending = s.pending := rfl
@[simp] theorem State.freshHasher_taken : s.freshHasher.taken = s.taken := rfl
@[simp] theorem State.freshHasher_input : s.freshHasher.input = s.input := rfl
@[simp] theorem State.freshHasher_everReset : s.freshHasher.everReset = s.everReset := rfl
@[simp] theorem State.freshHasher_resets : s.freshHasher.resets = s.resets := rfl

@[simp] theorem State.resetEvent_hash : s.resetEvent.hash = IV := rfl
@[simp] theorem State.resetEvent_buf : s.resetEvent.buf = [] := rfl
@[simp] theorem State.resetEvent_cnt : s.resetEvent.cnt = 0 := rfl
@[simp] theorem State.resetEvent_closed : s.resetEvent.closed = false := rfl
@[simp] theorem State.resetEvent_dec : s.resetEvent.dec = .cmd := rfl
@[simp] theorem State.resetEvent_pending : s.resetEvent.pending = s.pending.take (Config.resetRspDelivery s.resets) := rfl
@[simp] theorem State.resetEvent_taken : s.resetEvent.taken = s.taken := rfl
@[simp] theorem State.resetEvent_input : s.resetEvent.input = s.input := rfl
@[simp] theorem State.resetEvent_everReset : s.resetEvent.everReset = true := rfl
@[simp] theorem State.resetEvent_resets : s.resetEvent.resets = s.resets + 1 := rfl

@[simp] theorem State.hostTake_hash (n : Nat) : (s.hostTake n).hash = s.hash := rfl
@[simp] theorem State.hostTake_buf (n : Nat) : (s.hostTake n).buf = s.buf := rfl
@[simp] theorem State.hostTake_cnt (n : Nat) : (s.hostTake n).cnt = s.cnt := rfl
@[simp] theorem State.hostTake_closed (n : Nat) : (s.hostTake n).closed = s.closed := rfl
@[simp] theorem State.hostTake_dec (n : Nat) : (s.hostTake n).dec = s.dec := rfl
@[simp] theorem State.hostTake_pending (n : Nat) : (s.hostTake n).pending = s.pending.drop n := rfl
@[simp] theorem State.hostTake_taken (n : Nat) : (s.hostTake n).taken = s.taken ++ s.pending.take n := rfl
@[simp] theorem State.hostTake_input (n : Nat) : (s.hostTake n).input = s.input := rfl
@[simp] theorem State.hostTake_everReset (n : Nat) : (s.hostTake n).everReset = s.everReset := rfl
@[simp] theorem State.hostTake_resets (n : Nat) : (s.hostTake n).resets = s.resets := rfl

end Sys2Proof.Machine
end

