-- ==== Sys2Proof/Laws/Ops.lean ====
section
/-! SUPPORT. The spec lemmas of the shared operations: what each can do, and what it leaves alone. -/

namespace Sys2Proof.Machine

variable (s : State)

/-! ## feed_byte, feed, accept -/

/-- All that `feedByte` can do (41_block_buffer.md R140). -/
theorem State.feedByte_cases (b : Byte) :
    (s.buf.length = 63 ∧ s.feedByte b = { s with hash := compress s.hash (s.buf ++ [b]), buf := [] }) ∨
    (s.buf.length ≠ 63 ∧ s.feedByte b = { s with buf := s.buf ++ [b] }) := by
  by_cases h : s.buf.length = 63
  · exact .inl ⟨h, by simp [State.feedByte, h]⟩
  · exact .inr ⟨h, by simp [State.feedByte, h]⟩

@[simp] theorem State.feedByte_cnt (b : Byte) : (s.feedByte b).cnt = s.cnt := by
  obtain ⟨-, e⟩ | ⟨-, e⟩ := s.feedByte_cases b <;> rw [e]
@[simp] theorem State.feedByte_closed (b : Byte) : (s.feedByte b).closed = s.closed := by
  obtain ⟨-, e⟩ | ⟨-, e⟩ := s.feedByte_cases b <;> rw [e]
@[simp] theorem State.feedByte_dec (b : Byte) : (s.feedByte b).dec = s.dec := by
  obtain ⟨-, e⟩ | ⟨-, e⟩ := s.feedByte_cases b <;> rw [e]
@[simp] theorem State.feedByte_pending (b : Byte) : (s.feedByte b).pending = s.pending := by
  obtain ⟨-, e⟩ | ⟨-, e⟩ := s.feedByte_cases b <;> rw [e]
@[simp] theorem State.feedByte_taken (b : Byte) : (s.feedByte b).taken = s.taken := by
  obtain ⟨-, e⟩ | ⟨-, e⟩ := s.feedByte_cases b <;> rw [e]
@[simp] theorem State.feedByte_input (b : Byte) : (s.feedByte b).input = s.input := by
  obtain ⟨-, e⟩ | ⟨-, e⟩ := s.feedByte_cases b <;> rw [e]
@[simp] theorem State.feedByte_everReset (b : Byte) : (s.feedByte b).everReset = s.everReset := by
  obtain ⟨-, e⟩ | ⟨-, e⟩ := s.feedByte_cases b <;> rw [e]
@[simp] theorem State.feedByte_resets (b : Byte) : (s.feedByte b).resets = s.resets := by
  obtain ⟨-, e⟩ | ⟨-, e⟩ := s.feedByte_cases b <;> rw [e]

/-- How full the buffer is after a byte, without its bytes (R23). -/
theorem State.feedByte_length (b : Byte) (h : s.buf.length ≤ 63) :
    (s.feedByte b).buf.length = (s.buf.length + 1) % 64 := by
  obtain ⟨hb, e⟩ | ⟨hb, e⟩ := s.feedByte_cases b
  · simp [e, hb]
  · simp only [e, List.length_append, List.length_singleton]
    omega

@[simp] theorem State.feed_nil : s.feed [] = s := rfl
@[simp] theorem State.feed_cons (b : Byte) (bs : List Byte) : s.feed (b :: bs) = (s.feedByte b).feed bs := rfl
theorem State.feed_append (bs cs : List Byte) : s.feed (bs ++ cs) = (s.feed bs).feed cs := by
  simp [State.feed, List.foldl_append]

/-- `feed` writes `H` and `BUF` and nothing else (R140, R142). -/
theorem State.feed_frame (bs : List Byte) :
    s.feed bs = { s with hash := (s.feed bs).hash, buf := (s.feed bs).buf } := by
  induction bs generalizing s with
  | nil => rfl
  | cons b bs ih =>
    rw [State.feed_cons]
    conv_lhs => rw [ih]
    simp

theorem State.feed_length (bs : List Byte) (h : s.buf.length ≤ 63) :
    (s.feed bs).buf.length = (s.buf.length + bs.length) % 64 := by
  induction bs generalizing s with
  | nil => simp; omega
  | cons b bs ih =>
    have hb := s.feedByte_length b h
    rw [State.feed_cons, ih _ (by omega), hb, List.length_cons]
    omega

@[simp] theorem State.feed_cnt (bs : List Byte) : (s.feed bs).cnt = s.cnt := by rw [State.feed_frame]
@[simp] theorem State.feed_closed (bs : List Byte) : (s.feed bs).closed = s.closed := by rw [State.feed_frame]
@[simp] theorem State.feed_dec (bs : List Byte) : (s.feed bs).dec = s.dec := by rw [State.feed_frame]
@[simp] theorem State.feed_pending (bs : List Byte) : (s.feed bs).pending = s.pending := by rw [State.feed_frame]

/-- The counter plays no part in `feed`. -/
theorem State.feed_with_cnt (bs : List Byte) (c : BitVec 64) :
    ({ s with cnt := c } : State).feed bs = { s.feed bs with cnt := c } := by
  induction bs generalizing s with
  | nil => rfl
  | cons b bs ih =>
    have h : ({ s with cnt := c } : State).feedByte b = { s.feedByte b with cnt := c } := by
      by_cases hb : s.buf.length = 63 <;> simp [State.feedByte, hb]
    rw [State.feed_cons, State.feed_cons, h, ih]

@[simp] theorem State.accept_nil : s.accept [] = s := rfl
@[simp] theorem State.accept_cons (b : Byte) (bs : List Byte) : s.accept (b :: bs) = (s.acceptByte b).accept bs := rfl

/-- Accepting bytes is feeding them and counting 8 bits for each (R144). -/
theorem State.accept_spec (bs : List Byte) :
    s.accept bs = { s.feed bs with cnt := s.cnt + BitVec.ofNat 64 (8 * bs.length) } := by
  induction bs generalizing s with
  | nil => simp
  | cons b bs ih =>
    have h : s.acceptByte b = { s.feedByte b with cnt := s.cnt + 8 } := by simp [State.acceptByte, State.countByte]
    have hc : s.cnt + 8 + BitVec.ofNat 64 (8 * bs.length) = s.cnt + BitVec.ofNat 64 (8 * (bs.length + 1)) := by
      apply BitVec.eq_of_toNat_eq
      simp [Nat.mul_add]
      omega
    rw [State.accept_cons, ih, h, State.feed_with_cnt, State.feed_cons, List.length_cons, ← hc]

/-! ## The Finalizer's zero fill -/

/-- The zero fill feeds zero bytes until 56 are buffered (42_finalizer.md R163). -/
theorem State.zeroFill_spec (n : Nat) (h : s.buf.length ≤ 63) (hn : (120 - s.buf.length) % 64 ≤ n) :
    s.zeroFill n = s.feed (List.replicate ((120 - s.buf.length) % 64) 0x00) := by
  induction n generalizing s with
  | zero =>
    have h0 : (120 - s.buf.length) % 64 = 0 := by omega
    simp [State.zeroFill, h0]
  | succ n ih =>
    by_cases h56 : s.buf.length = 56
    · simp [State.zeroFill, h56]
    · have hl := s.feedByte_length 0x00 h
      have hk : (120 - s.buf.length) % 64 = (120 - (s.feedByte 0x00).buf.length) % 64 + 1 := by omega
      rw [State.zeroFill, if_neg h56, ih _ (by omega) (by omega), hk, List.replicate_succ, State.feed_cons]

/-- The zero fill writes `H` and `BUF` and nothing else, from every state. -/
theorem State.zeroFill_frame (n : Nat) :
    s.zeroFill n = { s with hash := (s.zeroFill n).hash, buf := (s.zeroFill n).buf } := by
  induction n generalizing s with
  | zero => rfl
  | succ n ih =>
    rw [State.zeroFill]
    split
    · rfl
    · conv_lhs => rw [ih]
      simp

/-- Padding writes `H` and `BUF` and nothing else, `CNT` and `CLOSED` among the rest, from every state (R161). -/
theorem State.padMessage_frame :
    s.padMessage = { s with hash := s.padMessage.hash, buf := s.padMessage.buf } := by
  have hz := (s.feedByte 0x80).zeroFill_frame 63
  unfold State.padMessage
  generalize State.zeroFill 63 (s.feedByte 0x80) = u at hz
  conv_lhs => rw [State.feed_frame]
  rw [State.mk.injEq]
  refine ⟨rfl, rfl, ?_, ?_, ?_, ?_, ?_, ?_, ?_, ?_⟩ <;> rw [hz] <;> simp

/-! ## Room on the response port -/

/-- With every response taken there is room (70_reset_and_hazards.md R263). -/
theorem State.hasRoom_of_pending_nil (h : s.pending = []) : s.hasRoom = true := by
  simp [State.hasRoom, h]

/-- All that waiting for room can do: the words in front stay in front, and the act behind them happens, if there is one. -/
theorem State.waitForRoom_cases :
    (s.input = s.input.takeWhile Input.isWord ∧ s.waitForRoom = s) ∨
    (∃ n rest, s.input = s.input.takeWhile Input.isWord ++ .take n :: rest ∧
      s.waitForRoom = { s with input := s.input.takeWhile Input.isWord ++ rest }.hostTake n) ∨
    (∃ rest, s.input = s.input.takeWhile Input.isWord ++ .reset :: rest ∧
      s.waitForRoom = { s with input := s.input.takeWhile Input.isWord ++ rest }.resetEvent) := by
  have hs := List.takeWhile_append_dropWhile (p := Input.isWord) (l := s.input)
  unfold State.waitForRoom
  split
  · next n rest hd => exact .inr (.inl ⟨n, rest, by rw [← hd, hs], rfl⟩)
  · next rest hd => exact .inr (.inr ⟨rest, by rw [← hd, hs], rfl⟩)
  · next hn hr =>
    refine .inl ⟨?_, rfl⟩
    rcases hd : s.input.dropWhile Input.isWord with _ | ⟨e, rest⟩
    · rw [hd, List.append_nil] at hs; exact hs.symm
    · cases e with
      | word w => have := List.head?_dropWhile_not Input.isWord s.input; simp [hd, Input.isWord] at this
      | reset => exact absurd hd (hr rest)
      | take n => exact absurd hd (hn n rest)

end Sys2Proof.Machine
end

