-- ==== Sys2Proof/Laws/PerInstr.lean ====
section
/-! SUPPORT. Family OpField: the `OP` field of every instruction's word is the one the command map of 30_encoding.md R72
gives its row; a data word may hold any bits (R76). -/

namespace Sys2Proof.Laws

/-- The top field of a command word made from its fields. -/
theorem opField_commandWord (op : BitVec 4) (arg : BitVec 28) : opField (commandWord op arg) = op := by
  have ha := arg.isLt
  have ho := op.isLt
  apply BitVec.eq_of_toNat_eq
  simp only [opField, commandWord, BitVec.extractLsb'_toNat, BitVec.toNat_append, Nat.shiftRight_eq_div_pow]
  rw [← Nat.shiftLeft_add_eq_or_of_lt ha, Nat.shiftLeft_eq]
  omega

/-- Where R72 and R79 place the row in the command map. -/
def OpField.Statement : Instr → Prop
  | .init => opField (encode .init) = 0x1#4
  | .update n => opField (encode (.update n)) = 0x2#4
  | .finalize => opField (encode .finalize) = 0x3#4
  | .illegalOp0 arg => opField (encode (.illegalOp0 arg)) = 0x0#4
  | .illegalInitArg arg => opField (encode (.illegalInitArg arg)) = 0x1#4
  | .illegalFinalizeArg arg => opField (encode (.illegalFinalizeArg arg)) = 0x3#4
  | .illegalOp4to7 op arg => (Instr.illegalOp4to7 op arg).wf = true →
      4 ≤ (opField (encode (.illegalOp4to7 op arg))).toNat ∧ (opField (encode (.illegalOp4to7 op arg))).toNat ≤ 7
  | .illegalOp8toF op arg => (Instr.illegalOp8toF op arg).wf = true →
      8 ≤ (opField (encode (.illegalOp8toF op arg))).toNat
  | .data b0 b1 b2 b3 => (opField (encode (.data b0 b1 b2 b3))).toNat = b0.toNat / 16

theorem OpField.init : OpField.Statement .init := rfl
theorem OpField.update (n : BitVec 28) : OpField.Statement (.update n) := opField_commandWord _ n
theorem OpField.finalize : OpField.Statement .finalize := rfl
theorem OpField.illegalOp0 (arg : BitVec 28) : OpField.Statement (.illegalOp0 arg) := opField_commandWord _ arg
theorem OpField.illegalInitArg (arg : BitVec 28) : OpField.Statement (.illegalInitArg arg) := opField_commandWord _ arg
theorem OpField.illegalFinalizeArg (arg : BitVec 28) : OpField.Statement (.illegalFinalizeArg arg) :=
  opField_commandWord _ arg
theorem OpField.illegalOp4to7 (op : BitVec 4) (arg : BitVec 28) : OpField.Statement (.illegalOp4to7 op arg) := by
  intro h
  rw [encode, opField_commandWord]
  simpa [Instr.wf] using h
theorem OpField.illegalOp8toF (op : BitVec 4) (arg : BitVec 28) : OpField.Statement (.illegalOp8toF op arg) := by
  intro h
  rw [encode, opField_commandWord]
  simpa [Instr.wf] using h
theorem OpField.data (b0 b1 b2 b3 : Byte) : OpField.Statement (.data b0 b1 b2 b3) := by
  have h0 := b0.isLt
  have h1 := b1.isLt
  have h2 := b2.isLt
  have h3 := b3.isLt
  simp only [OpField.Statement, encode, opField, Machine.be32, BitVec.extractLsb'_toNat, BitVec.toNat_append,
    Nat.shiftRight_eq_div_pow]
  rw [← Nat.shiftLeft_add_eq_or_of_lt h1, ← Nat.shiftLeft_add_eq_or_of_lt h2, ← Nat.shiftLeft_add_eq_or_of_lt h3]
  simp only [Nat.shiftLeft_eq]
  omega

end Sys2Proof.Laws
end

