-- ==== Sys2Proof/Laws/Step.lean ====
section
/-! SUPPORT. All that a step can do, said once; later proofs cite these and do not unfold `step` or `exec`. -/

namespace Sys2Proof.Machine

/-- What a word offered to the core is run as. -/
theorem stepWord_eq (w : Word) (s : State) : stepWord w s = exec (decode s.dec w) s := rfl

/-- The four kinds of command word, as the decoder gives them. -/
theorem decodeCommand_cases (w : Word) :
    decodeCommand w = .init ∨ (∃ n, decodeCommand w = .update n) ∨ decodeCommand w = .finalize ∨
      (decodeCommand w).isIllegal = true := by
  unfold decodeCommand
  split_ifs <;> simp [Instr.isIllegal]

/-- Every illegal command word does the same (43_control.md R205). -/
theorem exec_of_isIllegal {i : Instr} (h : i.isIllegal = true) (s : State) :
    exec i s = .next (s.reportError .illegalCommand) := by
  cases i <;> first | rfl | simp [Instr.isIllegal] at h

/-- All that a word can do to the core: INIT, UPDATE's command word, FINALIZE, an illegal word, a data word. -/
theorem stepWord_cases (w : Word) (s : State) :
    (s.dec = .cmd ∧
      ((decode s.dec w = .init ∧ stepWord w s = execInit s) ∨
       (∃ n, decode s.dec w = .update n ∧ stepWord w s = execUpdate n s) ∨
       (decode s.dec w = .finalize ∧ stepWord w s = execFinalize s) ∨
       ((decode s.dec w).isIllegal = true ∧ stepWord w s = .next (s.reportError .illegalCommand)))) ∨
    (∃ r, s.dec = .data r ∧
      stepWord w s = execData (byteOf w 0) (byteOf w 1) (byteOf w 2) (byteOf w 3) s) := by
  rcases hd : s.dec with _ | r
  · refine .inl ⟨rfl, ?_⟩
    have e : stepWord w s = exec (decodeCommand w) s := by rw [stepWord_eq, hd, decode]
    obtain h | ⟨n, h⟩ | h | h := decodeCommand_cases w
    · exact .inl ⟨h, by rw [e, h, exec]⟩
    · exact .inr (.inl ⟨n, h, by rw [e, h, exec]⟩)
    · exact .inr (.inr (.inl ⟨h, by rw [e, h, exec]⟩))
    · exact .inr (.inr (.inr ⟨h, by rw [e, exec_of_isIllegal h]⟩))
  · exact .inr ⟨r, rfl, by rw [stepWord_eq, hd, decode, decodeData, exec]⟩

/-- All that a step can answer. -/
theorem step_cases (s : State) :
    (s.input = [] ∧ step s = .next s) ∨
    (∃ rest, s.input = .reset :: rest ∧ step s = .next { s with input := rest }.resetEvent) ∨
    (∃ n rest, s.input = .take n :: rest ∧
      step s = if s.everReset then .next ({ s with input := rest }.hostTake n) else .refused .beforeFirstReset) ∨
    (∃ w rest, s.input = .word w :: rest ∧
      step s = if s.everReset then
        (if s.hasRoom then stepWord w { s with input := rest } else .next s.waitForRoom)
        else .refused .beforeFirstReset) := by
  rcases h : s.input with _ | ⟨e, rest⟩
  · exact .inl ⟨rfl, by simp [step, h]⟩
  · cases e with
    | word w => exact .inr (.inr (.inr ⟨w, rest, rfl, by simp [step, h]⟩))
    | reset => exact .inr (.inl ⟨rest, rfl, by simp [step, h]⟩)
    | take n => exact .inr (.inr (.inl ⟨n, rest, rfl, by simp [step, h]⟩))

end Sys2Proof.Machine
end

