-- ==== Sys2Proof/Machine/AssemblerText.lean ====
section
/-! DEFINITION. The notation as text: one statement a line, and the lines a disassembler prints (30_encoding.md R90, R91,
R94). A line is a list of characters. What the spec leaves open of the text itself (blanks, where a comment may start, the
digits of a number) is log entry 11. -/

namespace Sys2Proof.Machine

/-- The double quote that opens and closes a string (R91). -/
def quoteChar : Char := Char.ofNat 34

/-- The value of a hex digit. -/
def hexDigitValue (c : Char) : Option Nat :=
  let n := c.toNat
  if 48 ≤ n ∧ n ≤ 57 then some (n - 48)
  else if 97 ≤ n ∧ n ≤ 102 then some (n - 87)
  else if 65 ≤ n ∧ n ≤ 70 then some (n - 55)
  else none

/-- The number some digits of a base spell, read on from `acc`. -/
def digitsFrom (base : Nat) : Nat → List Char → Option Nat
  | acc, [] => some acc
  | acc, c :: cs =>
    match hexDigitValue c with
    | none => none
    | some d => if d < base then digitsFrom base (acc * base + d) cs else none

/-- A number: hex digits after `0x`, else decimal digits; at least one digit. -/
def readNumber : List Char → Option Nat
  | '0' :: 'x' :: c :: cs => digitsFrom 16 0 (c :: cs)
  | c :: cs => digitsFrom 10 0 (c :: cs)
  | [] => none

/-- Hex digits in pairs, each a byte (R91). -/
def readHexBytes : List Char → Option (List Byte)
  | [] => some []
  | [_] => none
  | c :: d :: cs =>
    match digitsFrom 16 0 [c, d], readHexBytes cs with
    | some n, some bs => some (BitVec.ofNat 8 n :: bs)
    | _, _ => none

/-- A line without its comment, which starts at a semicolon outside a string (R90). -/
def withoutComment : Bool → List Char → List Char
  | _, [] => []
  | inString, c :: cs =>
    if c = quoteChar then c :: withoutComment (!inString) cs
    else if c = ';' ∧ !inString then []
    else c :: withoutComment inString cs

/-- A line without blanks at its ends. -/
def trimBlanks (cs : List Char) : List Char :=
  ((cs.dropWhile (· == ' ')).reverse.dropWhile (· == ' ')).reverse

/-- What follows a leading word, when the line starts with it. -/
def afterWord : List Char → List Char → Option (List Char)
  | [], cs => some cs
  | _ :: _, [] => none
  | k :: ks, c :: cs => if k = c then afterWord ks cs else none

/-- The characters of a string up to its closing quote, which ends the line (R91); ASCII only. -/
def readString : List Char → Option (List Char)
  | [] => none
  | c :: cs =>
    if c = quoteChar then (if cs = [] then some [] else none)
    else if c.toNat < 128 then (readString cs).map (c :: ·)
    else none

/-- `rep(<byte>, <count>)`, from after the opening bracket (R91). -/
def readRep (cs : List Char) : Option BytesForm :=
  let byte := trimBlanks (cs.takeWhile (· != ','))
  match cs.dropWhile (· != ',') with
  | [] => none
  | _ :: rest =>
    match rest.reverse with
    | ')' :: count =>
      match readNumber byte, readNumber (trimBlanks count.reverse) with
      | some b, some n => if b < 256 then some (.rep (BitVec.ofNat 8 b) n) else none
      | _, _ => none
    | _ => none

/-- A form of `<bytes>` (R91). -/
def readBytesForm (cs : List Char) : Option BytesForm :=
  match afterWord ['h', 'e', 'x', ':'] cs with
  | some digits => (readHexBytes digits).map .hex
  | none =>
    match afterWord ['r', 'e', 'p', '('] cs with
    | some rest => readRep rest
    | none =>
      match cs with
      | c :: rest => if c = quoteChar then (readString rest).map .ascii else none
      | [] => none

/-- A statement, from a line without blanks at its ends (R90, R92). -/
def readStmt (cs : List Char) : Option Stmt :=
  if cs = ['I', 'N', 'I', 'T'] then some .init
  else if cs = ['F', 'I', 'N', 'A', 'L', 'I', 'Z', 'E'] then some .finalize
  else
    match afterWord ['U', 'P', 'D', 'A', 'T', 'E', ' '] cs with
    | some rest => (readBytesForm (trimBlanks rest)).map .update
    | none =>
      match afterWord ['H', 'A', 'S', 'H', ' '] cs with
      | some rest => (readBytesForm (trimBlanks rest)).map .hash
      | none =>
        match afterWord ['.', 'w', 'o', 'r', 'd', ' '] cs with
        | some rest =>
          match readNumber (trimBlanks rest) with
          | some n => if n < 2 ^ 32 then some (.word (BitVec.ofNat 32 n)) else none
          | none => none
        | none => none

/-- The word stream of a program text, line by line; a line with no statement gives no word (R90). -/
def assembleText : List (List Char) → Option (List Word)
  | [] => some []
  | line :: more =>
    let text := trimBlanks (withoutComment false line)
    match assembleText more with
    | none => none
    | some ws => if text = [] then some ws else (readStmt text).map fun st => assemble st ++ ws

/-- A hex digit, lower case. -/
def hexDigit (n : Nat) : Char := if n < 10 then Char.ofNat (48 + n) else Char.ofNat (87 + n)

/-- A word as `0x` and 8 hex digits. -/
def hexWord (w : Word) : List Char :=
  '0' :: 'x' :: ([28, 24, 20, 16, 12, 8, 4, 0].map fun k => hexDigit (w.toNat / 2 ^ k % 16))

/-- The line a disassembler prints for a word it has read as `i` (R94). -/
def printInstr (i : Instr) (w : Word) : List Char :=
  match i with
  | .init => ['I', 'N', 'I', 'T']
  | .update n => ['U', 'P', 'D', 'A', 'T', 'E', ' '] ++ Nat.toDigits 10 n.toNat
  | .finalize => ['F', 'I', 'N', 'A', 'L', 'I', 'Z', 'E']
  | .illegalOp0 _ => ['.', 'i', 'l', 'l', 'e', 'g', 'a', 'l', ' '] ++ hexWord w
  | .illegalInitArg _ => ['.', 'i', 'l', 'l', 'e', 'g', 'a', 'l', ' '] ++ hexWord w
  | .illegalFinalizeArg _ => ['.', 'i', 'l', 'l', 'e', 'g', 'a', 'l', ' '] ++ hexWord w
  | .illegalOp4to7 _ _ => ['.', 'i', 'l', 'l', 'e', 'g', 'a', 'l', ' '] ++ hexWord w
  | .illegalOp8toF _ _ => ['.', 'i', 'l', 'l', 'e', 'g', 'a', 'l', ' '] ++ hexWord w
  | .data _ _ _ _ => ['.', 'd', 'a', 't', 'a', ' '] ++ hexWord w

/-- The lines a disassembler prints for a stream read from a known `DEC` (R94). -/
def disassembleText (d : Dec) (ws : List Word) : List (List Char) :=
  ((disassemble d ws).zip ws).map fun iw => printInstr iw.1 iw.2

end Sys2Proof.Machine
end

