-- ==== Sys2Proof/Tests/Slice0.lean ====
section
/-! SUPPORT. Tests on fixed values from the spec (the source of each stands beside it), and a witness for the hypotheses of
every statement that has some. -/

namespace Sys2Proof.Tests

open Sys2Proof.Machine

/-- The outcome is a next state that meets `p`. -/
def nextWith (o : Host.Outcome State Fault Refusal) (p : State → Bool) : Bool :=
  match o with
  | .next t => p t
  | .fault _ => false
  | .refused _ => false

/-- The outcome is this refusal. -/
def refusedWith (o : Host.Outcome State Fault Refusal) (r : Refusal) : Bool :=
  match o with
  | .next _ => false
  | .fault _ => false
  | .refused r' => r' == r

/-- The hash state of digest "abc" (95_test_vectors.md V1). -/
def abcHash : HashState :=
  ⟨0xba7816bf, 0x8f01cfea, 0x414140de, 0x5dae2223, 0xb00361a3, 0x96177a9c, 0xb410ff61, 0xf20015ad⟩

/-- A core that has taken "abc" (V21). -/
def afterAbc : State := { State.reset with buf := [0x61, 0x62, 0x63], cnt := 24 }

/-- A core closed over "abc" (V32, P1). -/
def closedAbc : State := { State.reset with hash := abcHash, cnt := 24, closed := true }

/-- An open core with `n` bytes `0x61` buffered (V30). -/
def bufferedAs (n : Nat) : State := { State.reset with buf := List.replicate n 0x61, cnt := BitVec.ofNat 64 (8 * n) }

/-! ## Well-formedness: an ill-formed term for each check (30_encoding.md R72, R79; 10_state.md R30) -/

theorem test_wf_init_arg_zero_refused : (Instr.illegalInitArg 0).wf = false := by decide
theorem test_wf_finalize_arg_zero_refused : (Instr.illegalFinalizeArg 0).wf = false := by decide
theorem test_wf_op3_is_below_the_range : (Instr.illegalOp4to7 3 0).wf = false := by decide
theorem test_wf_op8_is_above_the_range : (Instr.illegalOp4to7 8 0).wf = false := by decide
theorem test_wf_op7_is_below_the_range : (Instr.illegalOp8toF 7 0).wf = false := by decide
theorem test_wf_data_zero_refused : (Dec.data 0).wf = false := by decide
theorem test_wf_data_above_maxUpd_refused : (Dec.data (2 ^ 28)).wf = false := by decide
theorem test_wf_boundaries_accepted :
    (Instr.illegalInitArg 1).wf && (Instr.illegalOp4to7 4 0).wf && (Instr.illegalOp4to7 7 0).wf &&
    (Instr.illegalOp8toF 8 0).wf && (Instr.update 0).wf && (Dec.data 1).wf && (Dec.data (2 ^ 28 - 1)).wf = true := by
  decide
theorem test_reads_by_position :
    Dec.cmd.reads .init && (Dec.data 1).reads (.data 0 0 0 0) && !Dec.cmd.reads (.data 0 0 0 0) &&
    !(Dec.data 1).reads .init = true := by decide

/-! ## Decoding, bit by bit from 30_encoding.md R72 to R79 and the opcode table -/

theorem test_decode_init : decode .cmd 0b00010000000000000000000000000000#32 = .init := by decide
theorem test_decode_update : decode .cmd 0b00100000000000000000000000000011#32 = .update 3 := by decide
theorem test_decode_update_all_ones : decode .cmd 0b00101111111111111111111111111111#32 = .update 268435455 := by decide
theorem test_decode_finalize : decode .cmd 0b00110000000000000000000000000000#32 = .finalize := by decide
theorem test_decode_op0 : decode .cmd 0b00000000000000000000000000000000#32 = .illegalOp0 0 := by decide
theorem test_decode_init_arg : decode .cmd 0b00010000000000000000000000000001#32 = .illegalInitArg 1 := by decide
theorem test_decode_finalize_arg :
    decode .cmd 0b00111000000000000000000000000000#32 = .illegalFinalizeArg 0x8000000 := by decide
theorem test_decode_op4 : decode .cmd 0b01000000000000000000000000000000#32 = .illegalOp4to7 4 0 := by decide
theorem test_decode_op7 : decode .cmd 0b01110000000000000000000000000001#32 = .illegalOp4to7 7 1 := by decide
theorem test_decode_op8 : decode .cmd 0b10000000000000000000000000000000#32 = .illegalOp8toF 8 0 := by decide
theorem test_decode_opF :
    decode .cmd 0b11111111111111111111111111111111#32 = .illegalOp8toF 15 0xfffffff := by decide
theorem test_decode_data :
    decode (.data 4) 0b01100001011000100110001101100100#32 = .data 0x61 0x62 0x63 0x64 := by decide
/-- V21: the word of FINALIZE is data while `DEC = DATA(r)`. -/
theorem test_decode_finalize_word_as_data : decode (.data 4) 0x30000000#32 = .data 0x30 0 0 0 := by decide
theorem test_encode_words :
    encode .init = 0x10000000#32 ∧ encode (.update 56) = 0x20000038#32 ∧ encode .finalize = 0x30000000#32 ∧
    encode (.illegalOp4to7 6 0x5666768) = 0x65666768#32 ∧ encode (.data 0x56 0x57 0x58 0x59) = 0x56575859#32 := by
  decide
/-- The rows of the opcode table as the host numbers them; the data word's row fixes no bit. -/
theorem test_table_words :
    decodeTableWord 32 0x10000000 = some .init ∧ decodeTableWord 32 0x20000000 = some (.update 0) ∧
    decodeTableWord 32 0x30000000 = some .finalize ∧ decodeTableWord 32 0 = some (.illegalOp0 0) ∧
    decodeTableWord 32 0x80000000 = some (.illegalOp8toF 8 0) ∧
    decodeTableWord 0 0 = some (.data 0 0 0 0) ∧ decodeTableWord 40 0x10000000 = none := by decide
/-- P3: the disassembler's view of a command and its data. -/
theorem test_assemble_hash_abc :
    assemble (.hash (.ascii ['a', 'b', 'c'])) = [0x10000000#32, 0x20000003#32, 0x61626300#32, 0x30000000#32] := by decide
theorem test_disassemble_follows_dec :
    disassemble .cmd [0x20000004#32, 0x30000000#32, 0x30000000#32] = [.update 4, .data 0x30 0 0 0, .finalize] := by
  decide

/-- R90, R91: statements as text, with a comment. -/
theorem test_assemble_text :
    assembleText [['U', 'P', 'D', 'A', 'T', 'E', ' ', quoteChar, 'a', 'b', 'c', quoteChar, ' ', ';', ' ', 'x'],
      ['.', 'w', 'o', 'r', 'd', ' ', '0', 'x', '1', '0', '0', '0', '0', '0', '0', '1'],
      ['U', 'P', 'D', 'A', 'T', 'E', ' ', 'h', 'e', 'x', ':', '6', '1', '6', '2'],
      ['U', 'P', 'D', 'A', 'T', 'E', ' ', 'r', 'e', 'p', '(', '0', 'x', '6', '1', ',', ' ', '5', ')']] =
      some [0x20000003#32, 0x61626300#32, 0x10000001#32, 0x20000002#32, 0x61620000#32,
        0x20000005#32, 0x61616161#32, 0x61000000#32] := by decide +kernel
/-- R94: the printed forms. -/
theorem test_disassemble_text :
    disassembleText .cmd [0x20000001#32, 0x6100beef#32, 0x40000000#32] =
      [['U', 'P', 'D', 'A', 'T', 'E', ' ', '1'],
       ['.', 'd', 'a', 't', 'a', ' ', '0', 'x', '6', '1', '0', '0', 'b', 'e', 'e', 'f'],
       ['.', 'i', 'l', 'l', 'e', 'g', 'a', 'l', ' ', '0', 'x', '4', '0', '0', '0', '0', '0', '0', '0']] := by
  decide +kernel

/-! ## The Compression Engine (95_test_vectors.md V10 and the tables of §2) -/

theorem test_word_ops :
    rotr 0x00000001 1 = 0x80000000#32 ∧ rotr 0x12345678 8 = 0x78123456#32 ∧ rotr 0x80000000 31 = 0x00000001#32 ∧
    shr 0x80000000 3 = 0x10000000#32 := by decide
theorem test_sigmas :
    smallSigma0 0x12345678 = 0xe7fce6ee#32 ∧ smallSigma1 0x12345678 = 0xa1f78649#32 ∧
    bigSigma0 0x12345678 = 0x66146474#32 ∧ bigSigma1 0x12345678 = 0x3561abda#32 := by decide
theorem test_choose_majority :
    choose 0x510e527f 0x9b05688c 0x1f83d9ab = 0x1f85c98c#32 ∧
    majority 0x510e527f 0x9b05688c 0x1f83d9ab = 0x1b0758af#32 := by decide
/-- Round 0 of "abc" (R115). -/
theorem test_round_zero :
    compressRound (Working.ofHash IV) (0x428a2f98, 0x61626380) =
      ⟨0x5d6aebcd, 0x6a09e667, 0xbb67ae85, 0x3c6ef372, 0xfa2a4622, 0x510e527f, 0x9b05688c, 0x1f83d9ab⟩ := by decide
theorem test_tables_have_their_size : roundConstants.length = 64 ∧ roundConstants.getD 63 0 = 0xc67178f2#32 := by decide

/-! ## One step of each instruction -/

/-- V35: INIT from a closed core. -/
theorem test_init :
    nextWith (exec .init closedAbc) (fun t => t == { State.reset with pending := [0] }) = true := by decide
/-- P1: the command word of an UPDATE. -/
theorem test_update_opens_data :
    nextWith (step (State.reset.withFetchWord 32 0x20000003)) (fun t => t.dec == .data 3 && t.pending == []) = true := by
  decide
/-- V22: a zero-length UPDATE while closed. -/
theorem test_update_zero_closed :
    nextWith (exec (.update 0) closedAbc) (fun t => t == { closedAbc with pending := [1] }) = true := by decide
/-- V21: transfer padding `ff` is ignored. -/
theorem test_data_last_word :
    nextWith (stepWord 0x616263ff#32 { State.reset with dec := .data 3 }) (fun t => t == { afterAbc with pending := [0] })
      = true := by decide
/-- P4, V23: the flush in the middle of a data word. -/
theorem test_data_flushes_inside_the_word :
    nextWith (stepWord 0x56575859#32
        { State.reset with buf := (List.range 62).map (BitVec.ofNat 8), cnt := 496, dec := .data 5 })
      (fun t => t.hash == ⟨0x3259f030, 0x84ee4347, 0x23d19037, 0xb5729140, 0x9d2dbc64, 0x8cbb91b4, 0x684cc4b3, 0xe0a2a238⟩
        && t.buf == [0x58, 0x59] && t.cnt == 528 && t.dec == .data 1 && t.pending == []) = true := by decide +kernel
/-- V1, V32: FINALIZE of "abc", with `CNT` as it was. -/
theorem test_finalize_abc :
    nextWith (exec .finalize afterAbc)
      (fun t => t == { closedAbc with pending := 0 :: digestWords abcHash }) = true := by decide +kernel
/-- V30, n = 63: the marker byte flushes, two compressions. -/
theorem test_finalize_sixty_three :
    nextWith (exec .finalize (bufferedAs 63))
      (fun t => t.hash ==
        ⟨0x7d3e74a0, 0x5d7db15b, 0xce4ad9ec, 0x0658ea98, 0xe3f06eee, 0xcf16b4c6, 0xfff2da45, 0x7ddc2f34⟩) = true := by
  decide +kernel
/-- V36: each illegal row from reset. -/
theorem test_illegal_rows :
    [0x00000000, 0x10000001, 0x30000001, 0x40000000, 0xf0000000, 0x1fffffff, 0x3fffffff, 0x8fffffff].all (fun w =>
      nextWith (stepWord w State.reset) (fun t => t == { State.reset with pending := [2] })) = true := by decide
/-- P2: a closed core keeps its digest through a rejected UPDATE. -/
theorem test_data_of_closed_core :
    nextWith (stepWord 0x64000000#32 { closedAbc with dec := .data 1 })
      (fun t => t == { closedAbc with pending := [1] }) = true := by decide
theorem test_data_outside_update :
    refusedWith (exec (.data 0 0 0 0) State.reset) .dataWordOutsideUpdate = true := by decide
/-- V34: the padding with a wrapped counter. -/
theorem test_padding_wrapped :
    padding 0 0xfffffffffffffff8 =
      0x80 :: (List.replicate 55 0 ++ [0xff, 0xff, 0xff, 0xff, 0xff, 0xff, 0xff, 0xf8]) := by decide
/-- V37, P5: reset in the middle of an UPDATE. -/
theorem test_reset_inside_update :
    nextWith (step { State.reset with buf := [0x61, 0x62, 0x63, 0x64], cnt := 32, dec := .data 4, input := [.reset] })
      (fun t => t.buf == [] && t.cnt == 0 && t.dec == .cmd && t.input == []) = true := by decide
theorem test_step_idle : nextWith (step State.reset) (fun t => t == State.reset) = true := by decide
theorem test_host_takes_in_order :
    nextWith (step { State.reset with pending := [1, 2, 3], input := [.take 2] })
      (fun t => t == { State.reset with pending := [3], taken := [1, 2] }) = true := by decide
theorem test_unreset_core_refuses :
    refusedWith (step { State.reset with everReset := false, input := [.word 0x10000000] }) .beforeFirstReset = true := by
  decide
/-- The host's question: the first instruction after reset, a row a line. -/
theorem test_first_instruction_runs :
    nextWith (step (State.reset.withFetchWord 32 0x10000000)) (fun t => t.pending == [0]) &&
    nextWith (step (State.reset.withFetchWord 32 0x30000000)) (fun t => t.pending.length == 9) &&
    nextWith (step (State.reset.withFetchWord 32 0x40000000)) (fun t => t.pending == [2]) &&
    nextWith (step (State.reset.withFetchWord 0 0x61626364)) (fun t => t.buf == [0x61, 0x62, 0x63, 0x64]) = true := by
  decide +kernel

/-! ## Witnesses: a concrete state and operands that meet all the hypotheses of a statement -/

theorem witness_DecodeEncodeRoundTrip :
    (Instr.illegalOp8toF 15 7).wf = true ∧ Dec.cmd.reads (.illegalOp8toF 15 7) = true ∧
    (Instr.data 1 2 3 4).wf = true ∧ (Dec.data 1).reads (.data 1 2 3 4) = true := by decide
theorem witness_InitAndFinalizeMatchTheirMasks :
    decode .cmd 0x10000000#32 = .init ∧ decode .cmd 0x30000000#32 = .finalize := by decide
theorem witness_UpdateMatchesItsMaskAndCountsArg : decode .cmd 0x2fffffff#32 = .update 0xfffffff := by decide
theorem witness_IllegalWordsAreExactlyTheReservedOnes :
    State.reset.dec = .cmd ∧ (decode .cmd 0x10000001#32).isIllegal = true ∧
    (decode .cmd 0x10000000#32).isIllegal = false := by decide
theorem witness_MessageBytesArePackedBigEndian :
    [0x61626364#32, 0x65000000#32].length = dataWordCount 5 ∧ 0 ≤ 3 ∧ 4 * 1 + 0 < 5 := by decide
theorem witness_RotateAndShiftMoveBits : 0 < 31 ∧ 31 < 32 ∧ 0 < 32 := by decide
theorem witness_SigmaFunctionsMixRotatedBits : 31 < 32 := by decide
theorem witness_ChooseSelectsAndMajorityVotes : 31 < 32 := by decide
theorem witness_ScheduleFollowsTheRecurrence :
    (List.replicate 64 (0x61 : Byte)).length = 64 ∧ 15 < 16 ∧ 16 ≤ 16 ∧ 63 < 64 := by decide

/-- The working registers of the all-zero block, round by round, by the equations of R115. -/
def zeroBlockRounds : Nat → Working
  | 0 => Working.ofHash IV
  | t + 1 => compressRound (zeroBlockRounds t) (roundConstants.getD t 0, 0)

theorem zero_word : (0 : Word) = smallSigma1 0 + 0 + smallSigma0 0 + 0 := by decide

/-- The schedule of the all-zero block is zero throughout (R113), and the rounds follow their equations. -/
theorem witness_CompressComputesTheSixtyFourRounds :
    ∃ (H : HashState) (B : List Byte) (W : Nat → Word) (v : Nat → Working), B.length = 64 ∧
      (∀ t, t < 16 →
        W t = B.getD (4 * t) 0 ++ B.getD (4 * t + 1) 0 ++ B.getD (4 * t + 2) 0 ++ B.getD (4 * t + 3) 0) ∧
      (∀ t, 16 ≤ t → t < 64 →
        W t = smallSigma1 (W (t - 2)) + W (t - 7) + smallSigma0 (W (t - 15)) + W (t - 16)) ∧
      v 0 = ⟨H.h0, H.h1, H.h2, H.h3, H.h4, H.h5, H.h6, H.h7⟩ ∧
      (∀ t, t < 64 →
        let T1 := (v t).h + bigSigma1 (v t).e + choose (v t).e (v t).f (v t).g + roundConstants.getD t 0 + W t
        let T2 := bigSigma0 (v t).a + majority (v t).a (v t).b (v t).c
        v (t + 1) = ⟨T1 + T2, (v t).a, (v t).b, (v t).c, (v t).d + T1, (v t).e, (v t).f, (v t).g⟩) :=
  ⟨IV, List.replicate 64 0, fun _ => 0, zeroBlockRounds, by decide, by decide, fun _ _ _ => zero_word,
    rfl,
    fun _ _ => rfl⟩

theorem witness_CompressStarFoldsTheBlocks :
    (List.replicate 64 (0x61 : Byte)).length = 64 ∧ (List.replicate 128 (0x62 : Byte)).length % 64 = 0 := by
  decide +kernel
theorem witness_FeedByteBuffersOrFlushes : (bufferedAs 62).buf.length < 63 ∧ (bufferedAs 63).buf.length = 63 := by decide
theorem witness_FeedCompressesEveryWholeBlock : (bufferedAs 63).buf.length ≤ 63 := by decide
theorem witness_UpdateCommandAnswersOrOpensData :
    (0 : BitVec 28) = 0 ∧ State.reset.closed = false ∧ closedAbc.closed = true ∧ (1 : BitVec 28) ≠ 0 := by decide
theorem witness_DataWordOfOpenCoreIsAccepted :
    ({ bufferedAs 63 with dec := .data 5 } : State).dec = .data 5 ∧
    ({ bufferedAs 63 with dec := .data 5 } : State).closed = false ∧
    ({ bufferedAs 63 with dec := .data 5 } : State).buf.length ≤ 63 := by decide
theorem witness_DataWordOfClosedCoreIsDiscarded :
    ({ closedAbc with dec := .data 4 } : State).dec = .data 4 ∧ closedAbc.closed = true := by decide
theorem witness_DataWordOutsideUpdateIsRefused : State.reset.dec = .cmd := by decide
theorem witness_UpdateRunFeedsItsMessage :
    (bufferedAs 63).dec = .cmd ∧ [0x61626364#32, 0x65000000#32].length = dataWordCount (5 : BitVec 28).toNat ∧
    (bufferedAs 63).closed = false ∧ (bufferedAs 63).buf.length ≤ 63 ∧ closedAbc.dec = .cmd ∧ closedAbc.closed = true := by
  decide
theorem witness_ChunkBoundariesDoNotMatter :
    (bufferedAs 63).dec = .cmd ∧ (bufferedAs 63).closed = false ∧ (bufferedAs 63).buf.length ≤ 63 ∧
    ∀ p ∈ [[], [0x61, 0x62], [(0x63 : Byte)]], p.length ≤ 2 ^ 28 - 1 := by decide
theorem witness_PaddingFillsWholeBlocks : 1 ≤ 1 ∧ 1 < 1 + zeroCount 54 := by decide
theorem witness_LengthFieldEndsTheLastBlock : 7 < 8 := by decide
theorem witness_FinalizePadsClosesAndEmitsTheDigest :
    (bufferedAs 63).closed = false ∧ (bufferedAs 63).buf.length ≤ 63 ∧ closedAbc.closed = true := by decide
theorem witness_FinalizeCompressesOneOrTwoBlocks :
    (bufferedAs 55).closed = false ∧ (bufferedAs 55).buf.length ≤ 55 ∧ (bufferedAs 56).closed = false ∧
    56 ≤ (bufferedAs 56).buf.length ∧ (bufferedAs 56).buf.length ≤ 63 := by decide
theorem witness_FinalizeIsIdempotent :
    exec .finalize closedAbc = .next { closedAbc with pending := 0 :: digestWords abcHash } := rfl
theorem witness_DigestBytesAreBigEndian : 7 < 8 ∧ 3 < 4 := by decide
theorem witness_FinalizeEmitsTheMessageDigest : State.reset.Represents [] :=
  ⟨rfl, fun _ => ⟨rfl, rfl⟩, fun h => by cases h⟩
theorem witness_HashPseudoInstructionDigestsItsBytes :
    closedAbc.dec = .cmd ∧ (formBytes (.rep 0x61 3)).length ≤ 2 ^ 28 - 1 := by decide
theorem witness_StepRunsTheDecodedInstruction :
    ({ State.reset with input := [.word 0] } : State).input = [.word 0] ∧ State.reset.everReset = true ∧
    State.reset.hasRoom = true ∧ State.reset.pending = [] := by decide
theorem witness_OfferedWordRunsOrWaits :
    ({ State.reset with input := [.word 0, .take 1], pending := [1] } : State).input = .word 0 :: [.take 1] ∧
    ({ State.reset with input := [.word 0, .take 1], pending := [1] } : State).everReset = true := by decide
/-- The words that wait keep their place, and the taking behind them is the next act (R263; 20_memory.md R63). -/
theorem test_waiting_words_keep_their_order :
    ({ State.reset with input := [.word 7, .word 8, .take 1, .word 9], pending := [1, 2] } : State).waitForRoom =
      { State.reset with input := [.word 7, .word 8, .word 9], taken := [1], pending := [2] } := by decide
theorem witness_CoreHoldsItsStateBetweenWords :
    State.reset.input = [] ∧ ({ State.reset with input := [.take 3] } : State).input = [.take 3] ∧
    ({ State.reset with input := [.take 3] } : State).everReset = true := by decide
theorem witness_ResetEventRestoresTheResetState :
    ({ closedAbc with dec := .data 4, input := [.reset] } : State).input = [.reset] := by decide
theorem witness_ResetAndInitLeaveTheSameState : closedAbc.dec = .cmd := by decide
theorem witness_RunsMustBeginWithReset :
    ({ State.reset with everReset := false, input := [.word 0] } : State).everReset = false ∧
    ({ State.reset with everReset := false, input := [.word 0] } : State).input = [.word 0] ∧
    ({ State.reset with everReset := false, input := [.take 1] } : State).everReset = false ∧
    ({ State.reset with everReset := false, input := [.take 1] } : State).input = [.take 1] := by decide

/-- A state in the middle of an UPDATE meets the invariants, with the longest buffer and the largest count. -/
theorem witness_EveryStepKeepsTheInvariants :
    ({ bufferedAs 63 with dec := .data (2 ^ 28 - 1), input := [.word 0] } : State).Inv ∧
    step { bufferedAs 63 with dec := .cmd, input := [.word 0] } =
      .next { bufferedAs 63 with dec := .cmd, input := [], pending := [2] } :=
  ⟨⟨by decide, by decide, by decide⟩, rfl⟩
theorem witness_StepIsTotalOnWords : (bufferedAs 63).Inv := ⟨by decide, by decide, by decide⟩
theorem witness_ResponseCountFollowsTheWord :
    stepWord 0x10000000#32 State.reset = .next { State.reset with pending := [0] } ∧
    ({ State.reset with dec := .data 4 } : State).dec = .data 4 ∧ decode .cmd 0x20000000#32 = .update 0 ∧
    decode .cmd 0x30000000#32 = .finalize ∧ decode .cmd 0x10000000#32 = .init ∧
    (decode .cmd 0x40000000#32).isIllegal = true :=
  ⟨rfl, by decide, by decide, by decide, by decide, by decide⟩
theorem witness_EveryStepKeepsTheMessage : (bufferedAs 63).Inv ∧ (bufferedAs 63).Represents (List.replicate 63 0x61) :=
  ⟨⟨by decide, by decide, by decide⟩, rfl, fun _ => ⟨rfl, rfl⟩, fun h => by cases h⟩
theorem witness_OnlyInitDisturbsAClosedCore :
    closedAbc.closed = true ∧ decode closedAbc.dec 0x20000000#32 ≠ .init ∧
    stepWord 0x20000000#32 closedAbc = .next { closedAbc with pending := [1] } := ⟨by decide, by decide, rfl⟩
theorem witness_DecoderStateFollowsTheWordsAlone :
    runWords [0x20000003#32] State.reset = .next { State.reset with dec := .data 3 } := rfl
theorem witness_ControlIgnoresMessageBytes :
    ({ State.reset with dec := .data 3 } : State).dec = .data 3 ∧
    stepWord 0x61626300#32 { State.reset with dec := .data 3 } = .next { afterAbc with pending := [0] } ∧
    stepWord 0x00000000#32 { State.reset with dec := .data 3 } = .next { afterAbc with buf := [0, 0, 0], pending := [0] } :=
  ⟨by decide, rfl, rfl⟩
theorem witness_HiddenStateShowsOnlyThroughFinalize :
    State.reset.SameButHidden afterAbc ∧ decode State.reset.dec 0x20000005#32 ≠ .finalize :=
  ⟨⟨rfl, rfl, rfl, rfl, rfl, rfl, rfl⟩, by decide⟩
/-- A step without a reset, a reset being among the later events. -/
theorem witness_ResponsesAreNeverDropped :
    step { State.reset with pending := [1], input := [.take 1, .reset] } =
      .next { State.reset with taken := [1], input := [.reset] } ∧
    ({ State.reset with taken := [1], input := [.reset] } : State).resets =
      ({ State.reset with pending := [1], input := [.take 1, .reset] } : State).resets :=
  ⟨rfl, rfl⟩
theorem updatePieces_length_pos (n : Nat) (bs : List Byte) : 0 < (updatePieces n bs).length := by
  cases n with
  | zero => exact Nat.one_pos
  | succ n =>
    rw [updatePieces]
    split
    · exact Nat.one_pos
    · exact Nat.succ_pos _
theorem updatePieces_cuts (n : Nat) (bs : List Byte) (h : Config.maxUpd < bs.length) :
    1 < (updatePieces (n + 1) bs).length := by
  rw [updatePieces, if_neg (Nat.not_le_of_lt h), List.length_cons]
  exact Nat.succ_lt_succ (updatePieces_length_pos n _)
theorem witness_LongUpdateIsSplitExactly :
    (∀ bs : List Byte, Config.maxUpd < bs.length → 0 + 1 < (updatePieces bs.length bs).length) ∧
    (∃ bs : List Byte, Config.maxUpd < bs.length) ∧
    (bufferedAs 63).dec = .cmd ∧ (bufferedAs 63).closed = false ∧ (bufferedAs 63).buf.length ≤ 63 := by
  refine ⟨fun bs h => ?_, ⟨List.replicate (Config.maxUpd + 1) 0, ?_⟩, by decide, by decide, by decide⟩
  · obtain ⟨n, hn⟩ := Nat.exists_eq_add_one_of_ne_zero (Nat.ne_of_gt (Nat.lt_of_le_of_lt (Nat.zero_le _) h))
    rw [hn]
    exact updatePieces_cuts n bs h
  · rw [List.length_replicate]
    exact Nat.lt_succ_self _
theorem witness_DisassemblerFollowsAnUpdate : ([0x61, 0x62, 0x63, 0x64, 0x65] : List Byte).length ≤ 2 ^ 28 - 1 := by decide

end Sys2Proof.Tests
end

section
/-! SUPPORT. What feeding bytes leaves in `H` and `BUF`: the whole blocks of all the bytes so far are compressed and the
rest is buffered (41_block_buffer.md R143). FINALIZE's padding is one such feed (42_finalizer.md R161 to R164). -/

namespace Sys2Proof.Machine

/-! ## Sequences of whole blocks -/

/-- The whole 64-byte blocks at the front of a message (10_state.md R36 item 3). -/
def wholeBlocks (M : List Byte) : List Byte := M.take (64 * (M.length / 64))

/-- What is left of a message behind its whole blocks (R36 item 3). -/
def blockRest (M : List Byte) : List Byte := M.drop (64 * (M.length / 64))

theorem wholeBlocks_append_blockRest (M : List Byte) : wholeBlocks M ++ blockRest M = M := List.take_append_drop _ _

theorem wholeBlocks_length (M : List Byte) : (wholeBlocks M).length = 64 * (M.length / 64) := by
  rw [wholeBlocks, List.length_take]
  omega

theorem blockRest_length (M : List Byte) : (blockRest M).length = M.length % 64 := by
  rw [blockRest, List.length_drop]
  omega

theorem wholeBlocks_of_whole {M : List Byte} (h : M.length % 64 = 0) : wholeBlocks M = M :=
  List.take_of_length_le (by omega)

theorem blockRest_of_whole {M : List Byte} (h : M.length % 64 = 0) : blockRest M = [] :=
  List.drop_of_length_le (by omega)

theorem wholeBlocks_of_short {M : List Byte} (h : M.length ≤ 63) : wholeBlocks M = [] := by
  rw [wholeBlocks, Nat.div_eq_of_lt (by omega), Nat.mul_zero, List.take_zero]

theorem blockRest_of_short {M : List Byte} (h : M.length ≤ 63) : blockRest M = M := by
  rw [blockRest, Nat.div_eq_of_lt (by omega), Nat.mul_zero, List.drop_zero]

/-- A byte that does not fill a block leaves the whole blocks as they are. -/
theorem wholeBlocks_append_byte {M : List Byte} (b : Byte) (h : M.length % 64 ≠ 63) :
    wholeBlocks (M ++ [b]) = wholeBlocks M := by
  have hq : (M.length + 1) / 64 = M.length / 64 := by omega
  rw [wholeBlocks, List.length_append, List.length_singleton, hq, List.take_append_of_le_length (by omega), wholeBlocks]

/-- A byte that does not fill a block goes behind the rest. -/
theorem blockRest_append_byte {M : List Byte} (b : Byte) (h : M.length % 64 ≠ 63) :
    blockRest (M ++ [b]) = blockRest M ++ [b] := by
  have hq : (M.length + 1) / 64 = M.length / 64 := by omega
  rw [blockRest, List.length_append, List.length_singleton, hq, List.drop_append_of_le_length (by omega), blockRest]

/-! ## compress* over a concatenation (40_compression.md R121) -/

theorem compressBlocks_append (m n : Nat) (H : HashState) (A S : List Byte) (hA : A.length = 64 * m) :
    compressBlocks (m + n) H (A ++ S) = compressBlocks n (compressBlocks m H A) S := by
  induction m generalizing H A with
  | zero =>
    obtain rfl : A = [] := List.eq_nil_of_length_eq_zero hA
    rw [Nat.zero_add, List.nil_append, compressBlocks]
  | succ m ih =>
    have hle : 64 ≤ A.length := by omega
    rw [Nat.add_right_comm, compressBlocks, List.take_append_of_le_length hle,
      List.drop_append_of_le_length hle, ih _ _ (by rw [List.length_drop]; omega), compressBlocks]

/-- `compress*` takes whole blocks first and goes on from their hash. -/
theorem compressStar_append (H : HashState) (A S : List Byte) (hA : A.length % 64 = 0) :
    compressStar H (A ++ S) = compressStar (compressStar H A) S := by
  have hq : (A ++ S).length / 64 = A.length / 64 + S.length / 64 := by rw [List.length_append]; omega
  rw [compressStar, hq, compressBlocks_append _ _ _ _ _ (by omega), compressStar, compressStar]

@[simp] theorem compressStar_nil (H : HashState) : compressStar H [] = H := rfl

/-- `compress*` of a single block is `compress`. -/
theorem compressStar_block (H : HashState) (B : List Byte) (hB : B.length = 64) : compressStar H B = compress H B := by
  rw [compressStar, hB, compressBlocks, List.take_of_length_le (by omega), compressBlocks]

/-! ## feed -/

/-- The core has taken in the bytes `M` from the hash state `H`: the whole blocks are compressed into `H`, the rest is
buffered (R143; 10_state.md R36 items 3 and 4). -/
def State.Absorbed (s : State) (H : HashState) (M : List Byte) : Prop :=
  s.hash = compressStar H (wholeBlocks M) ∧ s.buf = blockRest M

variable {s : State} {H : HashState} {M : List Byte}

/-- A buffer that holds no whole block is what its own bytes leave. -/
theorem State.absorbed_buf (h : s.buf.length ≤ 63) : s.Absorbed s.hash s.buf :=
  ⟨by rw [wholeBlocks_of_short h, compressStar_nil], (blockRest_of_short h).symm⟩

theorem State.Absorbed.buf_length (h : s.Absorbed H M) : s.buf.length = M.length % 64 := by
  rw [h.2, blockRest_length]

/-- After whole blocks the buffer is empty. -/
theorem State.Absorbed.of_whole (h : s.Absorbed H M) (hM : M.length % 64 = 0) :
    s.hash = compressStar H M ∧ s.buf = [] := by
  obtain ⟨hhash, hbuf⟩ := h
  rw [wholeBlocks_of_whole hM] at hhash
  rw [blockRest_of_whole hM] at hbuf
  exact ⟨hhash, hbuf⟩

/-- One byte more, with or without the flush of the block it fills (R140, R141). -/
theorem State.Absorbed.feedByte (h : s.Absorbed H M) (b : Byte) : (s.feedByte b).Absorbed H (M ++ [b]) := by
  have hlen := h.buf_length
  obtain ⟨hhash, hbuf⟩ := h
  obtain ⟨h63, e⟩ | ⟨h63, e⟩ := s.feedByte_cases b
  · have hwhole : (M ++ [b]).length % 64 = 0 := by rw [List.length_append, List.length_singleton]; omega
    have hblock : (s.buf ++ [b]).length = 64 := by rw [List.length_append, h63, List.length_singleton]
    rw [e]
    refine ⟨?_, (blockRest_of_whole hwhole).symm⟩
    calc compress s.hash (s.buf ++ [b])
        = compressStar (compressStar H (wholeBlocks M)) (s.buf ++ [b]) := by rw [compressStar_block _ _ hblock, hhash]
      _ = compressStar H (wholeBlocks M ++ (s.buf ++ [b])) :=
          (compressStar_append _ _ _ (by rw [wholeBlocks_length]; omega)).symm
      _ = compressStar H (wholeBlocks (M ++ [b])) := by
          rw [hbuf, ← List.append_assoc, wholeBlocks_append_blockRest, wholeBlocks_of_whole hwhole]
  · have hM : M.length % 64 ≠ 63 := by omega
    rw [e]
    exact ⟨by rw [wholeBlocks_append_byte b hM, hhash], by rw [blockRest_append_byte b hM, hbuf]⟩

theorem State.Absorbed.feed (h : s.Absorbed H M) (bs : List Byte) : (s.feed bs).Absorbed H (M ++ bs) := by
  induction bs generalizing s M with
  | nil => rwa [List.append_nil]
  | cons b bs ih => rw [List.append_cons]; exact ih (h.feedByte b)

/-! ## The padding as one feed -/

/-- FINALIZE's padding is the feed of the marker byte, the zero fill and the length field (R161 to R164, R169). -/
theorem State.padMessage_eq_feed (h : s.buf.length ≤ 63) : s.padMessage = s.feed (padding s.buf.length s.cnt) := by
  have hlen := s.feedByte_length 0x80 h
  have hzeros : (120 - (s.feedByte 0x80).buf.length) % 64 = zeroCount s.buf.length := by
    rw [zeroCount]; omega
  rw [State.padMessage, State.zeroFill_spec _ 63 (by omega) (by omega), hzeros, ← State.feed_append, padding,
    State.feed_cons]

/-- The padding depends on the message length through the number of buffered bytes alone (R170). -/
theorem padding_mod (p : Nat) (L : BitVec 64) : padding (p % 64) L = padding p L := by
  rw [padding, padding, zeroCount, zeroCount, Nat.mod_mod]

theorem padding_length (p : Nat) (L : BitVec 64) : (padding p L).length = 1 + zeroCount p + 8 := by
  simp [padding, lengthBytes]
  omega

/-- Bytes with their padding are whole blocks (R169). -/
theorem append_padding_whole (M : List Byte) (L : BitVec 64) : (M ++ padding M.length L).length % 64 = 0 := by
  rw [List.length_append, padding_length, zeroCount]
  omega

/-- Padding compresses the buffered bytes with their padding and leaves an empty buffer (R164, R166). -/
theorem State.padMessage_spec (h : s.buf.length ≤ 63) :
    s.padMessage.hash = compressStar s.hash (s.buf ++ padding s.buf.length s.cnt) ∧ s.padMessage.buf = [] := by
  rw [State.padMessage_eq_feed h]
  exact ((State.absorbed_buf h).feed _).of_whole (append_padding_whole s.buf s.cnt)

/-- Padding a core that has taken in `M` leaves the hash of the whole message (R169). -/
theorem State.Absorbed.padMessage_hash (h : s.Absorbed IV M) (hcnt : s.cnt = bitLength M) :
    s.padMessage.hash = messageHash M := by
  have hlen := h.buf_length
  obtain ⟨hhash, hbuf⟩ := h
  calc s.padMessage.hash
      = compressStar s.hash (s.buf ++ padding s.buf.length s.cnt) := (State.padMessage_spec (by omega)).1
    _ = compressStar (compressStar IV (wholeBlocks M)) (blockRest M ++ padding M.length (bitLength M)) := by
        rw [hlen, padding_mod, hhash, hbuf, hcnt]
    _ = compressStar IV (wholeBlocks M ++ (blockRest M ++ padding M.length (bitLength M))) :=
        (compressStar_append _ _ _ (by rw [wholeBlocks_length]; omega)).symm
    _ = messageHash M := by rw [← List.append_assoc, wholeBlocks_append_blockRest, messageHash, paddedMessage]

@[simp] theorem State.padMessage_cnt (s : State) : s.padMessage.cnt = s.cnt := by rw [State.padMessage_frame]
@[simp] theorem State.padMessage_dec (s : State) : s.padMessage.dec = s.dec := by rw [State.padMessage_frame]

end Sys2Proof.Machine
end

section
/-! SUPPORT. The invariants and the message a state stands for (10_state.md R36), operation by operation and then for
every word (43_control.md R190). -/

namespace Sys2Proof

/-! ## Legal decoder states -/

theorem Dec.wf_data_iff (r : Nat) : (Dec.data r).wf = true ↔ 1 ≤ r ∧ r ≤ Config.maxUpd := by
  rw [Dec.wf, Bool.and_eq_true, decide_eq_true_eq, decide_eq_true_eq]

/-- Every byte count but 0 opens a legal `DATA(r)` (10_state.md R30; 30_encoding.md R75). -/
theorem Dec.wf_data_byteCount {n : BitVec 28} (hn : Machine.byteCount n ≠ 0) :
    (Dec.data (Machine.byteCount n)).wf = true :=
  (Dec.wf_data_iff _).2 ⟨Nat.one_le_iff_ne_zero.2 hn, Nat.le_sub_one_of_lt n.isLt⟩

/-- A `DATA(r)` that one data word does not complete goes on legally (R30). -/
theorem Dec.wf_data_sub_laneCount {r : Nat} (h : (Dec.data r).wf = true) (hr : r - Machine.laneCount r ≠ 0) :
    (Dec.data (r - Machine.laneCount r)).wf = true := by
  rw [Dec.wf_data_iff] at h ⊢
  omega

end Sys2Proof

namespace Sys2Proof.Machine

variable {s : State} {M : List Byte}

/-! ## What the invariants and the message depend on -/

@[simp] theorem State.emitStatus_inv (st : Status) : (s.emitStatus st).Inv ↔ s.Inv := Iff.rfl
@[simp] theorem State.emitAll_inv (vs : List Word) : (s.emitAll vs).Inv ↔ s.Inv := Iff.rfl

@[simp] theorem State.emitStatus_represents (st : Status) : (s.emitStatus st).Represents M ↔ s.Represents M := Iff.rfl
@[simp] theorem State.emitAll_represents (vs : List Word) : (s.emitAll vs).Represents M ↔ s.Represents M := Iff.rfl

theorem State.Inv.buf_length (h : s.Inv) : s.buf.length ≤ 63 := h.1
theorem State.Inv.dec_wf (h : s.Inv) : s.dec.wf = true := h.2.2

/-- Of the invariants only the range of `DEC` looks at `DEC` (R30). -/
theorem State.Inv.setDec (h : s.Inv) {d : Dec} (hd : d.wf = true) : (s.setDec d).Inv := ⟨h.1, h.2.1, hd⟩

/-- An open core stands for the bytes it has taken in and counted (R36 items 3 and 4). -/
theorem State.represents_open (h : s.closed = false) : s.Represents M ↔ s.cnt = bitLength M ∧ s.Absorbed IV M := by
  simp [State.Represents, State.Absorbed, wholeBlocks, blockRest, h]

/-- A closed core stands for the message whose hash it holds (42_finalizer.md R169). -/
theorem State.represents_closed (h : s.closed = true) :
    s.Represents M ↔ s.cnt = bitLength M ∧ s.hash = messageHash M ∧ s.buf = [] := by
  simp [State.Represents, h]

/-! ## The fresh hasher -/

theorem State.freshHasher_inv (h : s.dec.wf = true) : s.freshHasher.Inv := ⟨Nat.zero_le _, fun _ => rfl, h⟩

theorem State.freshHasher_represents : s.freshHasher.Represents [] := (State.represents_open rfl).2 ⟨rfl, rfl, rfl⟩

/-! ## The bytes of a data word -/

theorem bitLength_append (M bs : List Byte) :
    bitLength (M ++ bs) = bitLength M + BitVec.ofNat 64 (8 * bs.length) := by
  rw [bitLength, List.length_append, Nat.mul_add, BitVec.ofNat_add, bitLength]

theorem State.takeLanes_of_closed (h : s.closed = true) (bs : List Byte) : s.takeLanes bs = s := by
  simp [State.takeLanes, h]

theorem State.takeLanes_of_open (h : s.closed = false) (bs : List Byte) : s.takeLanes bs = s.accept bs := by
  simp [State.takeLanes, h]

@[simp] theorem State.accept_cnt (bs : List Byte) : (s.accept bs).cnt = s.cnt + BitVec.ofNat 64 (8 * bs.length) := by
  rw [State.accept_spec]
@[simp] theorem State.accept_buf (bs : List Byte) : (s.accept bs).buf = (s.feed bs).buf := by rw [State.accept_spec]
@[simp] theorem State.accept_hash (bs : List Byte) : (s.accept bs).hash = (s.feed bs).hash := by rw [State.accept_spec]
@[simp] theorem State.accept_closed (bs : List Byte) : (s.accept bs).closed = s.closed := by
  rw [State.accept_spec, State.feed_closed]
@[simp] theorem State.accept_dec (bs : List Byte) : (s.accept bs).dec = s.dec := by rw [State.accept_spec, State.feed_dec]

/-- The bytes of a data word keep the invariants, accepted or discarded (41_block_buffer.md R145). -/
theorem State.Inv.takeLanes (hI : s.Inv) (bs : List Byte) : (s.takeLanes bs).Inv := by
  cases hc : s.closed with
  | true => rwa [State.takeLanes_of_closed hc]
  | false =>
    rw [State.takeLanes_of_open hc]
    refine ⟨?_, by simp [hc], by rw [State.accept_dec]; exact hI.dec_wf⟩
    rw [State.accept_buf, State.feed_length _ _ hI.buf_length]
    omega

/-- Accepted bytes go behind the message of an open core (R144, R145). -/
theorem State.Represents.accept (h : s.Represents M) (hc : s.closed = false) (bs : List Byte) :
    (s.accept bs).Represents (M ++ bs) := by
  obtain ⟨hcnt, habs⟩ := (State.represents_open hc).1 h
  rw [State.represents_open (by rwa [State.accept_closed]), State.Absorbed, State.accept_hash, State.accept_buf]
  exact ⟨by rw [State.accept_cnt, hcnt, bitLength_append], habs.feed bs⟩

/-- A closed core discards the bytes, an open one adds them to its message (R145; 60_exceptions.md R221). -/
theorem State.Represents.takeLanes (h : s.Represents M) (bs : List Byte) :
    (s.takeLanes bs).Represents (if s.closed then M else M ++ bs) := by
  cases hc : s.closed with
  | true => rwa [State.takeLanes_of_closed hc]
  | false => rw [State.takeLanes_of_open hc]; exact h.accept hc bs

/-! ## Padding and closing -/

theorem State.close_inv (hbuf : s.buf = []) (hdec : s.dec.wf = true) : s.close.Inv :=
  ⟨by simp [hbuf], fun _ => hbuf, hdec⟩

theorem State.Inv.close_padMessage (hI : s.Inv) : s.padMessage.close.Inv :=
  State.close_inv (State.padMessage_spec hI.buf_length).2 (by rw [State.padMessage_dec]; exact hI.dec_wf)

/-- Padding and closing an open core keeps the message it stands for (42_finalizer.md R166, R169). -/
theorem State.Represents.close_padMessage (h : s.Represents M) (hI : s.Inv) (hc : s.closed = false) :
    s.padMessage.close.Represents M := by
  obtain ⟨hcnt, habs⟩ := (State.represents_open hc).1 h
  rw [State.represents_closed (State.close_closed _), State.close_cnt, State.close_hash, State.close_buf,
    State.padMessage_cnt]
  exact ⟨hcnt, habs.padMessage_hash hcnt, (State.padMessage_spec hI.buf_length).2⟩

/-! ## The instructions -/

/-- The outcome is a next state that meets the invariants, and that stands for `after M` whenever `s` stands for `M`
(R36). -/
def State.AdvancesTo (s : State) (o : Host.Outcome State Fault Refusal) (after : List Byte → List Byte) : Prop :=
  ∃ t, o = .next t ∧ t.Inv ∧ ∀ M, s.Represents M → t.Represents (after M)

theorem State.advancesTo_next {t : State} {after : List Byte → List Byte} (hI : t.Inv)
    (hR : ∀ M, s.Represents M → t.Represents (after M)) : s.AdvancesTo (.next t) after := ⟨t, rfl, hI, hR⟩

theorem execInit_advances (hI : s.Inv) : s.AdvancesTo (execInit s) fun _ => [] :=
  State.advancesTo_next (State.freshHasher_inv hI.dec_wf) fun _ _ => State.freshHasher_represents (s := s)

theorem illegal_advances (hI : s.Inv) : s.AdvancesTo (.next (s.reportError .illegalCommand)) id :=
  State.advancesTo_next hI fun _ h => h

theorem execUpdate_advances (hI : s.Inv) (n : BitVec 28) : s.AdvancesTo (execUpdate n s) id := by
  rw [execUpdate]
  split
  · exact State.advancesTo_next hI fun _ h => h
  next hn => exact State.advancesTo_next (hI.setDec (Dec.wf_data_byteCount hn)) fun _ h => h

theorem execFinalize_of_closed (h : s.closed = true) :
    execFinalize s = .next ((s.emitStatus .ok).emitAll (digestWords s.hash)) := by
  simp [execFinalize, h]

theorem execFinalize_of_open (h : s.closed = false) :
    execFinalize s = .next ((s.padMessage.close.emitStatus .ok).emitAll (digestWords s.padMessage.hash)) := by
  simp [execFinalize, h]

theorem execFinalize_advances (hI : s.Inv) : s.AdvancesTo (execFinalize s) id := by
  cases hc : s.closed with
  | true =>
    rw [execFinalize_of_closed hc]
    exact State.advancesTo_next hI fun _ h => h
  | false =>
    rw [execFinalize_of_open hc]
    exact State.advancesTo_next (by simpa using hI.close_padMessage) fun M h => by simpa using h.close_padMessage hI hc

theorem execData_advances (hI : s.Inv) {r : Nat} (hd : s.dec = .data r) (b0 b1 b2 b3 : Byte) :
    s.AdvancesTo (execData b0 b1 b2 b3 s) fun M => if s.closed then M else M ++ messageLanes r b0 b1 b2 b3 := by
  have hT := hI.takeLanes (messageLanes r b0 b1 b2 b3)
  have hwf : (Dec.data r).wf = true := hd ▸ hI.dec_wf
  rw [execData, hd]
  dsimp only
  split
  · exact State.advancesTo_next (hT.setDec rfl) fun _ h => h.takeLanes _
  next hr => exact State.advancesTo_next (hT.setDec (Dec.wf_data_sub_laneCount hwf hr)) fun _ h => h.takeLanes _

/-! ## Every word -/

/-- A word is its `OP` field and its `ARG` field (30_encoding.md R70). -/
theorem commandWord_fields (w : Word) : commandWord (opField w) (argField w) = w := by
  have hw := w.isLt
  apply BitVec.eq_of_toNat_eq
  simp only [commandWord, opField, argField, BitVec.toNat_append, BitVec.extractLsb'_toNat]
  rw [← Nat.shiftLeft_add_eq_or_of_lt (by omega), Nat.shiftLeft_eq]
  omega

/-- INIT is read from one word only (R73). -/
theorem decodeCommand_eq_init_iff (w : Word) : decodeCommand w = .init ↔ w = 0x10000000#32 := by
  refine ⟨fun h => ?_, fun h => by rw [h]; decide⟩
  obtain ⟨hop, harg⟩ : opField w = 0x1#4 ∧ argField w = 0#28 := by
    unfold decodeCommand at h
    split_ifs at h
    exact ⟨‹_›, ‹_›⟩
  rw [← commandWord_fields w, hop, harg]
  decide

/-- A command word other than INIT's keeps the message (00_scope.md R15). -/
theorem messageAfter_of_not_init {w : Word} (hd : s.dec = .cmd) (hw : decode s.dec w ≠ .init) :
    (fun M => messageAfter s M w) = id := by
  rw [hd, decode, Ne, decodeCommand_eq_init_iff] at hw
  funext M
  simp [messageAfter, hd, hw]

/-- INIT starts the message anew (R15). -/
theorem messageAfter_of_init {w : Word} (hd : s.dec = .cmd) (hw : decode s.dec w = .init) :
    (fun M => messageAfter s M w) = fun _ => [] := by
  rw [hd, decode, decodeCommand_eq_init_iff] at hw
  funext M
  simp [messageAfter, hd, hw]

/-- From every state that meets the invariants every word gives one that does, and the message follows (R36, R190). -/
theorem stepWord_advances (hI : s.Inv) (w : Word) : s.AdvancesTo (stepWord w s) fun M => messageAfter s M w := by
  obtain ⟨hd, ⟨hw, e⟩ | ⟨n, hw, e⟩ | ⟨hw, e⟩ | ⟨hw, e⟩⟩ | ⟨r, hd, e⟩ := stepWord_cases w s
  · rw [e, messageAfter_of_init hd hw]
    exact execInit_advances hI
  · rw [e, messageAfter_of_not_init hd (by simp [hw])]
    exact execUpdate_advances hI n
  · rw [e, messageAfter_of_not_init hd (by simp [hw])]
    exact execFinalize_advances hI
  · rw [e, messageAfter_of_not_init hd fun hi => by simp [hi, Instr.isIllegal] at hw]
    exact illegal_advances hI
  · have hM : (fun M => messageAfter s M w) = fun M => if s.closed then M else
        M ++ messageLanes r (byteOf w 0) (byteOf w 1) (byteOf w 2) (byteOf w 3) := by
      funext M
      simp [messageAfter, hd, messageLanes, wordBytes]
    rw [e, hM]
    exact execData_advances hI hd _ _ _ _

end Sys2Proof.Machine
end

section
/-! The statements of 10_state.md. -/

namespace Sys2Proof.Proofs
open Sys2Proof.Machine

/-- Settles O45: the invariants and the message are kept by each instruction, so by every word. -/
theorem everyStepKeepsTheMessage : Obligations.EveryStepKeepsTheMessage := by
  intro s M w hI hR
  obtain ⟨t, ht, hI', hR'⟩ := stepWord_advances hI w
  exact ⟨t, ht, hI', hR' M hR⟩

/-- Settles O39: INIT and reset both leave the fresh hasher of R35. -/
theorem resetAndInitLeaveTheSameState : Obligations.ResetAndInitLeaveTheSameState := by
  refine ⟨rfl, rfl, rfl, rfl, rfl, fun s hd => ⟨s.freshHasher.emitStatus .ok, rfl, ?_, ?_⟩⟩
  · exact ⟨s.freshHasher_hash, s.freshHasher_buf, s.freshHasher_cnt, s.freshHasher_closed⟩
  · exact hd

end Sys2Proof.Proofs
end

section
/-! SUPPORT. The byte views by position: the bytes of the length field, of the padding that it ends, and of a list of words
(20_memory.md R51 to R53). -/

namespace Sys2Proof.Machine

/-! ## The length field -/

/-- Byte `j` of the length as a number (R51). -/
theorem lengthByte_toNat (L : BitVec 64) (j : Nat) : (lengthByte L j).toNat = L.toNat / 2 ^ (56 - 8 * j) % 256 := by
  rw [lengthByte, BitVec.extractLsb'_toNat, Nat.shiftRight_eq_div_pow]

theorem lengthBytes_eq_map (L : BitVec 64) : lengthBytes L = (List.range 8).map (lengthByte L) := rfl

theorem lengthBytes_getElem? (L : BitVec 64) {j : Nat} (hj : j < 8) : (lengthBytes L)[j]? = some (lengthByte L j) := by
  rw [lengthBytes_eq_map, List.getElem?_map, List.getElem?_range hj, Option.map_some]

/-- The padding of `bs` is whole blocks whose last 8 bytes are the length field (R51, R169). -/
theorem append_padding_lastBlock_getElem? (bs : List Byte) (L : BitVec 64) {j : Nat} (hj : j < 8) :
    ((bs ++ padding bs.length L).drop ((bs ++ padding bs.length L).length - 64))[56 + j]? = some (lengthByte L j) := by
  have hwhole := append_padding_whole bs L
  obtain ⟨A, hA⟩ : ∃ A, bs ++ padding bs.length L = A ++ lengthBytes L :=
    ⟨bs ++ 0x80 :: List.replicate (zeroCount bs.length) 0x00, by simp [padding]⟩
  have hlen : (A ++ lengthBytes L).length = A.length + 8 := List.length_append
  rw [hA] at hwhole ⊢
  have hpos : (A ++ lengthBytes L).length - 64 + (56 + j) = A.length + j := by omega
  rw [List.getElem?_drop, hpos, List.getElem?_append_right (Nat.le_add_right _ _), Nat.add_sub_cancel_left,
    lengthBytes_getElem? L hj]

/-! ## The bytes of words -/

/-- Byte `k` of a word as a number (R53). -/
theorem byteOf_toNat (w : Word) (k : Nat) : (byteOf w k).toNat = w.toNat / 2 ^ (24 - 8 * k) % 256 := by
  rw [byteOf, BitVec.extractLsb'_toNat, Nat.shiftRight_eq_div_pow]

@[simp] theorem wordBytes_length (w : Word) : (wordBytes w).length = 4 := rfl

theorem wordBytes_eq_map (w : Word) : wordBytes w = (List.range 4).map (byteOf w) := rfl

theorem wordBytes_getElem? (w : Word) {k : Nat} (hk : k < 4) : (wordBytes w)[k]? = some (byteOf w k) := by
  rw [wordBytes_eq_map, List.getElem?_map, List.getElem?_range hk, Option.map_some]

@[simp] theorem flatMap_wordBytes_length (ws : List Word) : (ws.flatMap wordBytes).length = 4 * ws.length := by
  rw [List.length_flatMap, funext wordBytes_length, List.map_const', List.sum_replicate, smul_eq_mul, Nat.mul_comm]

/-- Byte `4i + k` of a list of words is byte `k` of word `i` (R52, R53). -/
theorem flatMap_wordBytes_getElem? (ws : List Word) (i : Nat) {k : Nat} (hk : k < 4) :
    (ws.flatMap wordBytes)[4 * i + k]? = ws[i]?.map (byteOf · k) := by
  induction ws generalizing i with
  | nil => simp
  | cons w ws ih =>
    rw [List.flatMap_cons]
    cases i with
    | zero => rw [Nat.mul_zero, Nat.zero_add, List.getElem?_append_left hk, wordBytes_getElem? w hk]; rfl
    | succ i =>
      have hpos : 4 * (i + 1) + k - (wordBytes w).length = 4 * i + k := by rw [wordBytes_length]; omega
      rw [List.getElem?_append_right (by rw [wordBytes_length]; omega), hpos, ih, List.getElem?_cons_succ]

@[simp] theorem digestWords_length (H : HashState) : (digestWords H).length = 8 := rfl

end Sys2Proof.Machine
end

section
/-! The statements of 20_memory.md. -/

namespace Sys2Proof.Proofs
open Sys2Proof.Machine

/-- Settles O25: byte `56 + j` of the last block is byte `j` of the length field. -/
theorem lengthFieldEndsTheLastBlock : Obligations.LengthFieldEndsTheLastBlock := by
  intro bs L j hj
  dsimp only
  rw [append_padding_lastBlock_getElem? bs L hj, Option.map_some, lengthByte_toNat]

/-- Settles O29: byte `4i + j` of the digest is byte `j` of digest word `i`. -/
theorem digestBytesAreBigEndian : Obligations.DigestBytesAreBigEndian := by
  refine fun H => ⟨by rw [digestBytes, flatMap_wordBytes_length, digestWords_length], fun i j hi hj => ?_⟩
  have hword : (digestWords H)[i]? = some ((digestWords H).getD i 0) := by
    rw [List.getD_eq_getElem _ _ hi, List.getElem?_eq_getElem hi]
  rw [digestBytes, flatMap_wordBytes_getElem? _ _ hj, hword, Option.map_some, Option.map_some, byteOf_toNat]

end Sys2Proof.Proofs
end

section
/-! SUPPORT. A command word by its two fields (30_encoding.md R70), and which words are read as FINALIZE, as an illegal
command and as UPDATE (R72 to R79). -/

namespace Sys2Proof

/-- `OP` as a number (R70). -/
theorem opField_toNat (w : Word) : (opField w).toNat = w.toNat / 2 ^ 28 := by
  have hw := w.isLt
  rw [opField, BitVec.extractLsb'_toNat, Nat.shiftRight_eq_div_pow]
  omega

/-- `ARG` as a number (R70, R85). -/
theorem argField_toNat (w : Word) : (argField w).toNat = w.toNat % 2 ^ 28 := by
  rw [argField, BitVec.extractLsb'_toNat, Nat.shiftRight_zero]

/-- The low field of a command word made from its fields. -/
theorem argField_commandWord (op : BitVec 4) (arg : BitVec 28) : argField (commandWord op arg) = arg := by
  have ha := arg.isLt
  apply BitVec.eq_of_toNat_eq
  rw [argField_toNat, commandWord, BitVec.toNat_append, ← Nat.shiftLeft_add_eq_or_of_lt ha, Nat.shiftLeft_eq]
  omega

/-- FINALIZE is read from one word only (R74). -/
theorem decodeCommand_eq_finalize_iff (w : Word) : decodeCommand w = .finalize ↔ w = 0x30000000#32 := by
  refine ⟨fun h => ?_, fun h => by rw [h]; decide⟩
  obtain ⟨hop, harg⟩ : opField w = 0x3#4 ∧ argField w = 0#28 := by
    unfold decodeCommand at h
    split_ifs at h
    exact ⟨‹_›, ‹_›⟩
  rw [← Machine.commandWord_fields w, hop, harg]
  decide

/-- Which fields make an illegal command word (R79). -/
theorem decodeCommand_isIllegal_iff (w : Word) :
    (decodeCommand w).isIllegal = true ↔
      (opField w).toNat = 0 ∨ 4 ≤ (opField w).toNat ∨
        (((opField w).toNat = 1 ∨ (opField w).toNat = 3) ∧ (argField w).toNat ≠ 0) := by
  unfold decodeCommand
  simp only [← BitVec.toNat_inj, BitVec.lt_def, BitVec.toNat_ofNat]
  split_ifs <;> simp only [Instr.isIllegal, true_iff, false_iff, Bool.false_eq_true] <;> omega

/-- An UPDATE's command word is read as that UPDATE, whatever its byte count (R75). -/
theorem decodeCommand_encode_update (n : BitVec 28) : decodeCommand (encode (.update n)) = .update n := by
  have hop : opField (encode (.update n)) = 0x2#4 := Laws.OpField.update n
  have harg : argField (encode (.update n)) = n := argField_commandWord _ n
  rw [decodeCommand, hop, harg]
  rfl

/-- An illegal command word is a single word (R78, R79). -/
theorem commandLength_of_isIllegal {i : Instr} (h : i.isIllegal = true) : commandLength i = 1 := by
  cases i with
  | init | update | finalize | data => cases h
  | _ => rfl

theorem decodeCommand_isData (w : Word) : (decodeCommand w).isData = false := by
  unfold decodeCommand
  split_ifs <;> rfl

end Sys2Proof
end

section
/-! SUPPORT. Message bytes packed into data words come back from them (30_encoding.md R77, R90). -/

namespace Sys2Proof.Machine

theorem wordBytes_be32 (b0 b1 b2 b3 : Byte) : wordBytes (be32 b0 b1 b2 b3) = [b0, b1, b2, b3] := by
  have h0 := b0.isLt
  have h1 := b1.isLt
  have h2 := b2.isLt
  have h3 := b3.isLt
  have hword : (be32 b0 b1 b2 b3).toNat = ((b0.toNat * 2 ^ 8 + b1.toNat) * 2 ^ 8 + b2.toNat) * 2 ^ 8 + b3.toNat := by
    simp only [be32, BitVec.toNat_append]
    rw [← Nat.shiftLeft_add_eq_or_of_lt h1, ← Nat.shiftLeft_add_eq_or_of_lt h2, ← Nat.shiftLeft_add_eq_or_of_lt h3]
    simp only [Nat.shiftLeft_eq]
  simp only [wordBytes, List.cons.injEq, ← BitVec.toNat_inj, byteOf_toNat, hword, and_true]
  omega

/-- The message bytes of a sequence of data words: the lanes of the first, then those of the rest (R77). -/
theorem messageOf_cons (r : Nat) (w : Word) (ws : List Word) :
    messageOf r (w :: ws) = (wordBytes w).take (laneCount r) ++ messageOf (r - 4) ws := by
  simp only [messageOf, List.flatMap_cons, List.take_append, wordBytes_length, laneCount]
  rw [← List.take_take, List.take_of_length_le (i := 4) (List.length_take_le' _ _)]

theorem dataWords_length (bs : List Byte) : (dataWords bs).length = dataWordCount bs.length := by
  fun_induction dataWords bs with
  | case5 b0 b1 b2 b3 bs ih =>
    simp only [List.length_cons, ih, dataWordCount]
    omega
  | _ => simp [dataWordCount]

/-- The data words of a message carry that message (R77, R90). -/
theorem messageOf_dataWords (bs : List Byte) : messageOf bs.length (dataWords bs) = bs := by
  fun_induction dataWords bs with
  | case1 => rfl
  | case5 b0 b1 b2 b3 bs ih =>
    have hlanes : laneCount (bs.length + 4) = 4 := Nat.min_eq_left (Nat.le_add_left _ _)
    rw [messageOf_cons, wordBytes_be32, List.length_cons, List.length_cons, List.length_cons, List.length_cons, hlanes]
    exact congrArg ([b0, b1, b2, b3] ++ ·) ih
  | _ => simp [messageOf, wordBytes_be32]

end Sys2Proof.Machine
end

section
/-! SUPPORT. Runs over a word stream (43_control.md R212): a whole UPDATE, and several of them one after the other
(41_block_buffer.md R145, R146). -/

namespace Sys2Proof.Machine

variable {s t : State}

/-! ## Runs, word by word -/

@[simp] theorem runWords_nil (s : State) : runWords [] s = .next s := rfl

theorem runWords_cons {w : Word} (h : stepWord w s = .next t) (ws : List Word) :
    runWords (w :: ws) s = runWords ws t := by
  rw [runWords, h]

theorem runWords_singleton (w : Word) (s : State) : runWords [w] s = stepWord w s := by
  rw [runWords]
  cases stepWord w s <;> rfl

/-- A run that completes goes on with the words behind it. -/
theorem runWords_append {ws : List Word} (h : runWords ws s = .next t) (vs : List Word) :
    runWords (ws ++ vs) s = runWords vs t := by
  induction ws generalizing s with
  | nil =>
    cases h
    rfl
  | cons w ws ih =>
    cases hw : stepWord w s with
    | next u => rw [List.cons_append, runWords_cons hw, ih (by rwa [runWords_cons hw] at h)]
    | fault f => rw [runWords, hw] at h; cases h
    | refused r => rw [runWords, hw] at h; cases h

/-! ## What taking in message bytes leaves alone, and what it passes over -/

@[simp] theorem State.takeLanes_nil (s : State) : s.takeLanes [] = s := by
  simp [State.takeLanes]

@[simp] theorem State.takeLanes_closed (bs : List Byte) : (s.takeLanes bs).closed = s.closed := by
  rw [State.takeLanes]
  split
  · rfl
  · exact State.accept_closed bs

@[simp] theorem State.takeLanes_dec (bs : List Byte) : (s.takeLanes bs).dec = s.dec := by
  rw [State.takeLanes]
  split
  · rfl
  · exact State.accept_dec bs

/-- A change of state that accepting a byte passes over is one that a data word's bytes pass over. -/
theorem State.takeLanes_comm {f : State → State} (hclosed : ∀ u, (f u).closed = u.closed)
    (hf : ∀ u b, (f u).acceptByte b = f (u.acceptByte b)) (s : State) (bs : List Byte) :
    (f s).takeLanes bs = f (s.takeLanes bs) := by
  rw [State.takeLanes, State.takeLanes, hclosed]
  split
  · rfl
  · exact List.foldl_hom f hf

theorem State.acceptByte_setDec (s : State) (d : Dec) (b : Byte) :
    (s.setDec d).acceptByte b = (s.acceptByte b).setDec d := by
  by_cases hb : s.buf.length = 63 <;> simp [State.acceptByte, State.countByte, State.feedByte, State.setDec, hb]

theorem State.acceptByte_emitAll (s : State) (vs : List Word) (b : Byte) :
    (s.emitAll vs).acceptByte b = (s.acceptByte b).emitAll vs := by
  by_cases hb : s.buf.length = 63 <;> simp [State.acceptByte, State.countByte, State.feedByte, State.emitAll, hb]

@[simp] theorem State.takeLanes_setDec (s : State) (bs : List Byte) (d : Dec) :
    (s.setDec d).takeLanes bs = (s.takeLanes bs).setDec d :=
  State.takeLanes_comm (f := (·.setDec d)) (fun _ => rfl) (fun u => u.acceptByte_setDec d) s bs

@[simp] theorem State.takeLanes_emitAll (s : State) (bs : List Byte) (vs : List Word) :
    (s.emitAll vs).takeLanes bs = (s.takeLanes bs).emitAll vs :=
  State.takeLanes_comm (f := (·.emitAll vs)) (fun _ => rfl) (fun u => u.acceptByte_emitAll vs) s bs

@[simp] theorem State.setDec_setDec (s : State) (d e : Dec) : (s.setDec d).setDec e = s.setDec e := rfl

theorem State.setDec_of_dec_eq {d : Dec} (h : s.dec = d) : s.setDec d = s := by rw [State.setDec, ← h]

/-- Emitting a status is emitting a list of one word. -/
theorem State.emitStatus_eq_emitAll (s : State) (st : Status) : s.emitStatus st = s.emitAll [statusWord st] := rfl

theorem State.emitAll_emitAll (s : State) (vs us : List Word) : (s.emitAll vs).emitAll us = s.emitAll (vs ++ us) := by
  rw [State.emitAll, State.emitAll, State.emitAll, List.append_assoc]

theorem State.accept_append (s : State) (bs cs : List Byte) : s.accept (bs ++ cs) = (s.accept bs).accept cs :=
  List.foldl_append

theorem State.takeLanes_append (s : State) (bs cs : List Byte) :
    s.takeLanes (bs ++ cs) = (s.takeLanes bs).takeLanes cs := by
  cases hc : s.closed with
  | true => rw [State.takeLanes_of_closed hc, State.takeLanes_of_closed hc, State.takeLanes_of_closed hc]
  | false =>
    have hc' : (s.accept bs).closed = false := by rw [State.accept_closed, hc]
    rw [State.takeLanes_of_open hc, State.takeLanes_of_open hc, State.takeLanes_of_open hc', State.accept_append]

/-! ## A whole UPDATE (R145) -/

/-- A data word takes in its message bytes; the last one of its UPDATE answers by `CLOSED` (R145). -/
theorem stepWord_data {r : Nat} (hd : s.dec = .data r) (w : Word) :
    stepWord w s =
      if r ≤ 4 then
        .next (((s.takeLanes ((wordBytes w).take (laneCount r))).setDec .cmd).emitStatus (updateStatus s.closed))
      else .next ((s.takeLanes ((wordBytes w).take (laneCount r))).setDec (.data (r - 4))) := by
  have hrest : r - laneCount r = r - 4 := by rw [laneCount]; omega
  rw [stepWord_eq, hd, decode, decodeData, exec, execData, hd]
  dsimp only
  simp only [hrest, Nat.sub_eq_zero_iff_le]
  rfl

/-- The data words of an UPDATE take in its message bytes and answer (R145). -/
theorem runWords_data {r : Nat} {ws : List Word} (hd : s.dec = .data r) (hr : 1 ≤ r)
    (hlen : ws.length = dataWordCount r) :
    runWords ws s = .next (((s.takeLanes (messageOf r ws)).setDec .cmd).emitStatus (updateStatus s.closed)) := by
  induction ws generalizing s r with
  | nil =>
    rw [List.length_nil, dataWordCount] at hlen
    omega
  | cons w ws ih =>
    rw [List.length_cons, dataWordCount] at hlen
    rw [messageOf_cons]
    by_cases h4 : r ≤ 4
    · obtain rfl : ws = [] := List.eq_nil_of_length_eq_zero (by omega)
      have hnil : messageOf (r - 4) [] = [] := List.take_nil
      rw [runWords_cons ((stepWord_data hd w).trans (if_pos h4)), hnil, List.append_nil, runWords_nil]
    · rw [runWords_cons ((stepWord_data hd w).trans (if_neg h4)), ih rfl (by omega) (by rw [dataWordCount]; omega),
        State.takeLanes_append, State.takeLanes_setDec, State.setDec_setDec, State.setDec_closed,
        State.takeLanes_closed]

/-- A whole UPDATE takes in its message bytes and answers by `CLOSED` (R145; 60_exceptions.md R221). -/
theorem runWords_update {n : BitVec 28} {ws : List Word} (hd : s.dec = .cmd)
    (hlen : ws.length = dataWordCount n.toNat) :
    runWords (encode (.update n) :: ws) s =
      .next ((s.takeLanes (messageOf n.toNat ws)).emitStatus (updateStatus s.closed)) := by
  have hstep : stepWord (encode (.update n)) s = execUpdate n s := by
    rw [stepWord_eq, hd, decode, decodeCommand_encode_update, exec]
  rw [execUpdate] at hstep
  by_cases hn : byteCount n = 0
  · rw [if_pos hn] at hstep
    rw [byteCount] at hn
    obtain rfl : ws = [] := List.eq_nil_of_length_eq_zero (by rw [hlen, hn]; rfl)
    have hnil : messageOf n.toNat [] = [] := List.take_nil
    rw [runWords_cons hstep, hnil, State.takeLanes_nil, runWords_nil]
  · rw [if_neg hn] at hstep
    have hcmd : (s.takeLanes (messageOf n.toNat ws)).dec = .cmd := by rw [State.takeLanes_dec, hd]
    rw [runWords_cons hstep, runWords_data rfl (Nat.one_le_iff_ne_zero.2 hn) hlen, byteCount, State.takeLanes_setDec,
      State.setDec_setDec, State.setDec_of_dec_eq hcmd, State.setDec_closed]

/-- `UPDATE <bytes>` in one command (30_encoding.md R90). -/
theorem runWords_updateWords {bs : List Byte} (hd : s.dec = .cmd) (hlen : bs.length ≤ Config.maxUpd) :
    runWords (updateWords bs) s = .next ((s.takeLanes bs).emitStatus (updateStatus s.closed)) := by
  have hn : (BitVec.ofNat 28 bs.length).toNat = bs.length :=
    Nat.mod_eq_of_lt (Nat.lt_of_le_of_lt hlen (by decide))
  rw [updateWords, runWords_update hd (by rw [hn, dataWords_length]), hn, messageOf_dataWords]

/-- Several UPDATE commands take in the bytes of all of them and answer one status word each (R146). -/
theorem runWords_flatMap_updateWords {ps : List (List Byte)} (hd : s.dec = .cmd)
    (hlen : ∀ p ∈ ps, p.length ≤ Config.maxUpd) :
    runWords (ps.flatMap updateWords) s =
      .next ((s.takeLanes ps.flatten).emitAll (List.replicate ps.length (statusWord (updateStatus s.closed)))) := by
  induction ps generalizing s with
  | nil => simp [State.emitAll]
  | cons p ps ih =>
    obtain ⟨hp, hps⟩ := List.forall_mem_cons.1 hlen
    rw [List.flatMap_cons, runWords_append (runWords_updateWords hd hp), ih (by simp [hd]) hps, List.flatten_cons,
      State.takeLanes_append, State.emitStatus_eq_emitAll, State.takeLanes_emitAll, State.emitAll_emitAll]
    simp [List.replicate_succ]

end Sys2Proof.Machine
end

section
/-! SUPPORT. An update of any length cut into pieces for one UPDATE each (30_encoding.md R93). -/

namespace Sys2Proof.Machine

theorem updatePieces_of_le (fuel : Nat) {bs : List Byte} (h : bs.length ≤ Config.maxUpd) :
    updatePieces fuel bs = [bs] := by
  cases fuel with
  | zero => rfl
  | succ fuel => exact if_pos h

theorem updatePieces_flatten (fuel : Nat) (bs : List Byte) : (updatePieces fuel bs).flatten = bs := by
  fun_induction updatePieces fuel bs with
  | case3 fuel bs h ih => rw [List.flatten_cons, ih, List.take_append_drop]
  | _ => exact List.append_nil _

/-- As much fuel as there are bytes cuts every piece to a length one UPDATE can carry. -/
theorem length_le_of_mem_updatePieces {fuel : Nat} {bs p : List Byte} (hfuel : bs.length ≤ fuel)
    (hp : p ∈ updatePieces fuel bs) : p.length ≤ Config.maxUpd := by
  fun_induction updatePieces fuel bs with
  | case1 bs =>
    rw [List.mem_singleton.1 hp]
    omega
  | case2 fuel bs h => rwa [List.mem_singleton.1 hp]
  | case3 fuel bs h ih =>
    have hmax : 0 < Config.maxUpd := by decide
    rcases List.mem_cons.1 hp with rfl | hp
    · exact List.length_take_le _ _
    · exact ih (by rw [List.length_drop]; omega) hp

/-- Every piece but the last is full. -/
theorem updatePieces_getD_length {fuel : Nat} {bs : List Byte} {i : Nat} (hi : i + 1 < (updatePieces fuel bs).length) :
    ((updatePieces fuel bs).getD i []).length = Config.maxUpd := by
  fun_induction updatePieces fuel bs generalizing i with
  | case3 fuel bs h ih =>
    cases i with
    | zero => exact List.length_take_of_le (by omega)
    | succ i => exact ih (Nat.lt_of_succ_lt_succ hi)
  | _ => simp at hi

/-- No piece of a non-empty update is empty. -/
theorem length_pos_of_mem_updatePieces {fuel : Nat} {bs p : List Byte} (hbs : 0 < bs.length)
    (hp : p ∈ updatePieces fuel bs) : 0 < p.length := by
  fun_induction updatePieces fuel bs with
  | case3 fuel bs h ih =>
    have hmax : 0 < Config.maxUpd := by decide
    rcases List.mem_cons.1 hp with rfl | hp
    · rw [List.length_take]
      omega
    · exact ih (by rw [List.length_drop]; omega) hp
  | _ => rwa [List.mem_singleton.1 hp]

/-- A non-empty update is cut into `ceil(n / MAXUPD)` pieces. -/
theorem updatePieces_length {fuel : Nat} {bs : List Byte} (hfuel : bs.length ≤ fuel) (hbs : 0 < bs.length) :
    (updatePieces fuel bs).length = (bs.length + (Config.maxUpd - 1)) / Config.maxUpd := by
  have hmax : Config.maxUpd = 268435455 := rfl
  fun_induction updatePieces fuel bs with
  | case1 bs => omega
  | case2 fuel bs h =>
    rw [hmax] at h
    rw [List.length_singleton, hmax]
    omega
  | case3 fuel bs h ih =>
    have hdrop : (bs.drop Config.maxUpd).length = bs.length - Config.maxUpd := List.length_drop
    rw [hmax] at h hdrop
    rw [hmax] at ih
    rw [List.length_cons, hmax, ih (by omega) (by omega), hdrop]
    omega

/-- `UPDATE <bytes>` of any length takes in its bytes and answers one status word a command (R93). -/
theorem runWords_assembleUpdate {s : State} (hd : s.dec = .cmd) (bs : List Byte) :
    runWords (assembleUpdate bs) s = .next ((s.takeLanes bs).emitAll
      (List.replicate (updatePieces bs.length bs).length (statusWord (updateStatus s.closed)))) := by
  rw [assembleUpdate, runWords_flatMap_updateWords hd fun _ hp => length_le_of_mem_updatePieces (Nat.le_refl _) hp,
    updatePieces_flatten]

end Sys2Proof.Machine
end

section
/-! SUPPORT. FINALIZE of a core that stands for a message (42_finalizer.md R166, R169), and the words of HASH
(30_encoding.md R92). -/

namespace Sys2Proof.Machine

/-- FINALIZE of an open core that stands for `M` leaves the hash of `M`, an empty buffer and a closed core, and answers
OK and the digest (R166, R169). -/
theorem execFinalize_of_represents {s : State} {M : List Byte} (hI : s.Inv) (hR : s.Represents M)
    (hc : s.closed = false) :
    execFinalize s = .next { s with
      hash := messageHash M
      buf := []
      closed := true
      pending := s.pending ++ 0x00000000#32 :: digestWords (messageHash M) } := by
  obtain ⟨hcnt, habs⟩ := (State.represents_open hc).1 hR
  have hpad : s.padMessage = { s with hash := messageHash M, buf := [] } := by
    rw [State.padMessage_frame, habs.padMessage_hash hcnt, (State.padMessage_spec hI.buf_length).2]
  rw [execFinalize_of_open hc, hpad]
  simp [State.close, State.emitStatus, State.emit, State.emitAll, statusWord]

/-- The hasher HASH hands to its FINALIZE: a fresh one that has accepted the bytes. -/
def State.freshAccept (s : State) (M : List Byte) : State := s.freshHasher.accept M

theorem State.freshAccept_inv {s : State} (hd : s.dec = .cmd) (M : List Byte) : (s.freshAccept M).Inv := by
  have h : s.freshHasher.Inv := State.freshHasher_inv (by rw [hd]; rfl)
  rw [State.freshAccept, ← State.takeLanes_of_open s.freshHasher_closed]
  exact h.takeLanes M

theorem State.freshAccept_represents (s : State) (M : List Byte) : (s.freshAccept M).Represents M :=
  State.freshHasher_represents.accept rfl M

@[simp] theorem State.freshAccept_closed (s : State) (M : List Byte) : (s.freshAccept M).closed = false :=
  State.accept_closed M

/-- HASH's bytes change the hasher and nothing else. -/
theorem State.freshAccept_frame (s : State) (M : List Byte) :
    s.freshAccept M = { s with
      hash := (s.freshAccept M).hash, buf := (s.freshAccept M).buf, cnt := bitLength M, closed := false } := by
  obtain ⟨hcnt, -⟩ := s.freshAccept_represents M
  rw [← hcnt, State.freshAccept, State.accept_spec, State.feed_frame]
  rfl

/-- The words of HASH run as INIT, the UPDATEs and FINALIZE (R92, R93). -/
theorem runWords_assemble_hash {s : State} (hd : s.dec = .cmd) (f : BytesForm) :
    runWords (assemble (.hash f)) s = execFinalize ((s.freshAccept (formBytes f)).emitAll
      (0x00000000#32 :: List.replicate (updatePieces (formBytes f).length (formBytes f)).length 0x00000000#32)) := by
  have hinit : stepWord (encode .init) s = .next (s.freshHasher.emitAll [0x00000000#32]) := by
    rw [stepWord_eq, hd]
    rfl
  have hupdates := runWords_assembleUpdate (s := s.freshHasher.emitAll [0x00000000#32]) hd (formBytes f)
  rw [State.takeLanes_emitAll, State.takeLanes_of_open s.freshHasher_closed, State.emitAll_emitAll] at hupdates
  have hfinalize {u : State} (hu : u.dec = .cmd) : runWords [encode .finalize] u = execFinalize u := by
    rw [runWords_singleton, stepWord_eq, hu]
    rfl
  rw [assemble, runWords_cons hinit, runWords_append hupdates]
  exact hfinalize (by rw [State.emitAll_dec, State.accept_dec, State.freshHasher_dec, hd])

end Sys2Proof.Machine
end

section
/-! The statements of 30_encoding.md. -/

namespace Sys2Proof.Proofs
open Sys2Proof.Machine

/-- Settles O3: each of the two is read from a single word, and the mask keeps every bit. -/
theorem initAndFinalizeMatchTheirMasks : Obligations.InitAndFinalizeMatchTheirMasks := by
  have hmask (w : Word) : w &&& 0xFFFFFFFF#32 = w := BitVec.and_allOnes
  refine ⟨rfl, rfl, fun w => ?_, fun w => ?_, fun w hw => ?_, fun w hw => ?_⟩
  · rw [hmask, decode, decodeCommand_eq_init_iff]
  · rw [hmask, decode, decodeCommand_eq_finalize_iff]
  · rw [(decodeCommand_eq_init_iff w).1 hw]
    decide
  · rw [(decodeCommand_eq_finalize_iff w).1 hw]
    decide

/-- Settles O5: the fields decide, and every illegal word only reports. -/
theorem illegalWordsAreExactlyTheReservedOnes : Obligations.IllegalWordsAreExactlyTheReservedOnes := by
  refine ⟨fun w => ?_, fun w hw => ?_, fun w s hd hw => ⟨commandLength_of_isIllegal hw, ?_⟩⟩
  · rw [decode, decodeCommand_isIllegal_iff, opField_toNat, argField_toNat]
  · obtain h | h | h | h := decodeCommand_cases w
    · exact .inl h
    · exact .inr (.inr h)
    · exact .inr (.inl h)
    · exact absurd hw (by rw [decode, h]; decide)
  · rw [stepWord_eq, hd, exec_of_isIllegal hw, ← hd]
    rfl

/-- Settles O6: the decoder looks at `DEC` first, and the lanes of a data word are its bytes. -/
theorem wordClassFollowsTheDecoderState : Obligations.WordClassFollowsTheDecoderState := by
  refine fun w r => ⟨decodeCommand_isData w, byteOf w 0, byteOf w 1, byteOf w 2, byteOf w 3, rfl, ?_, ?_, ?_, ?_⟩
  · have hw := w.isLt
    rw [byteOf_toNat]
    omega
  · rw [byteOf_toNat]
  · rw [byteOf_toNat]
  · simp [byteOf_toNat]

/-- Settles O51: the cuts of the update, and its run as that of one UPDATE a piece. -/
theorem longUpdateIsSplitExactly : Obligations.LongUpdateIsSplitExactly := by
  refine fun bs => ⟨updatePieces_flatten _ bs, fun p hp => length_le_of_mem_updatePieces (Nat.le_refl _) hp,
    fun i hi => updatePieces_getD_length hi, fun hlong => ?_, fun s hd hc _ => ?_⟩
  · have hpos : 0 < bs.length := by omega
    exact ⟨updatePieces_length (Nat.le_refl _) hpos, fun p hp => length_pos_of_mem_updatePieces hpos hp⟩
  · rw [runWords_assembleUpdate hd, State.takeLanes_of_open hc, State.accept_spec, hc, State.emitAll, State.feed_pending]
    rfl

/-- Settles O31: INIT leaves a fresh hasher, the UPDATEs let it stand for the bytes, and FINALIZE digests them. -/
theorem hashPseudoInstructionDigestsItsBytes : Obligations.HashPseudoInstructionDigestsItsBytes := by
  refine fun s f hd => ⟨fun hM => by rw [updatePieces_of_le _ hM, List.length_singleton], ?_⟩
  rw [runWords_assemble_hash hd]
  generalize formBytes f = M
  rw [execFinalize_of_represents ((State.emitAll_inv _).2 (State.freshAccept_inv hd M))
    ((State.emitAll_represents _).2 (s.freshAccept_represents M)) (s.freshAccept_closed M), State.freshAccept_frame]
  simp [State.emitAll]

/-- Settles O8: the words of R95, evaluated. -/
theorem workedEncodingsHold : Obligations.WorkedEncodingsHold := by
  unfold Obligations.WorkedEncodingsHold
  decide

end Sys2Proof.Proofs
end

section
/-! SUPPORT. The message schedule as the solution of its equations, and the rounds as a sequence of working registers
(40_compression.md R113 to R117). -/

namespace Sys2Proof.Machine

/-! ## The words of a block (20_memory.md R50) -/

/-- `B[4t] ‖ B[4t+1] ‖ B[4t+2] ‖ B[4t+3]` (R50). -/
def blockWord (B : List Byte) (t : Nat) : Word :=
  be32 (B.getD (4 * t) 0) (B.getD (4 * t + 1) 0) (B.getD (4 * t + 2) 0) (B.getD (4 * t + 3) 0)

theorem blockWord_replicate_zero (n t : Nat) : blockWord (List.replicate n 0) t = 0 := by
  simp [blockWord, be32]

theorem beWords_length (B : List Byte) : (beWords B).length = B.length / 4 := by
  fun_induction beWords B with
  | case1 b0 b1 b2 b3 bs ih => simp only [List.length_cons, ih]; omega
  | case2 B hshort =>
    match B, hshort with
    | [], _ | [_], _ | [_, _], _ | [_, _, _], _ => simp
    | b0 :: b1 :: b2 :: b3 :: bs, hshort => exact absurd rfl (hshort b0 b1 b2 b3 bs)

theorem beWords_getD {B : List Byte} {t : Nat} (ht : t < (beWords B).length) :
    (beWords B).getD t 0 = blockWord B t := by
  fun_induction beWords B generalizing t with
  | case1 b0 b1 b2 b3 bs ih =>
    cases t with
    | zero => rfl
    | succ t => rw [List.getD_cons_succ, ih (Nat.lt_of_succ_lt_succ ht)]; rfl
  | case2 => exact absurd ht (Nat.not_lt_zero t)

/-! ## The schedule equations (R113) -/

/-- `σ1(W[t-2]) + W[t-7] + σ0(W[t-15]) + W[t-16]` (R113). -/
def recurrenceWord (W : Nat → Word) (t : Nat) : Word :=
  smallSigma1 (W (t - 2)) + W (t - 7) + smallSigma0 (W (t - 15)) + W (t - 16)

/-- The recurrence reads earlier words only. -/
theorem recurrenceWord_congr {V W : Nat → Word} {t : Nat} (ht : 16 ≤ t) (h : ∀ i, i < t → V i = W i) :
    recurrenceWord V t = recurrenceWord W t := by
  rw [recurrenceWord, h _ (by omega), h _ (by omega), h _ (by omega), h _ (by omega), recurrenceWord]

/-- The words `W[0]` to `W[n-1]` meet the schedule equations of the block `B` (R113). -/
structure MeetsSchedule (B : List Byte) (n : Nat) (W : Nat → Word) : Prop where
  block : ∀ t, t < 16 → W t = blockWord B t
  recurrence : ∀ t, 16 ≤ t → t < n → W t = recurrenceWord W t

/-- The schedule equations have one solution. -/
theorem MeetsSchedule.unique {B : List Byte} {n : Nat} {V W : Nat → Word} (hV : MeetsSchedule B n V)
    (hW : MeetsSchedule B n W) (t : Nat) (ht : t < n) : V t = W t := by
  induction t using Nat.strong_induction_on with
  | h t ih =>
    obtain h16 | h16 := Nat.lt_or_ge t 16
    · rw [hV.block t h16, hW.block t h16]
    · rw [hV.recurrence t h16 ht, hW.recurrence t h16 ht]
      exact recurrenceWord_congr h16 fun i hi => ih i hi (hi.trans ht)

/-- The rule's corner case: `σ0(0) = σ1(0) = 0`, so zero words solve the equations of an all-zero block (R113). -/
theorem meetsSchedule_zero (k n : Nat) : MeetsSchedule (List.replicate k 0) n fun _ => 0 where
  block t _ := (blockWord_replicate_zero k t).symm
  recurrence _ _ _ := show 0 = smallSigma1 0 + 0 + smallSigma0 0 + 0 by decide

/-! ## The schedule the model grows -/

/-- The model's next word, from the words so far latest first, is the recurrence. -/
theorem nextScheduleWord_reverse {W : List Word} (h : 16 ≤ W.length) :
    nextScheduleWord W.reverse = recurrenceWord (W.getD · 0) W.length := by
  have hback (j : Nat) (hj : j < 16) : W.reverse.getD j 0 = W.getD (W.length - (j + 1)) 0 := by
    rw [List.getD_reverse j (by omega), Nat.sub_sub, Nat.add_comm 1 j]
  rw [nextScheduleWord, hback 1 (by decide), hback 6 (by decide), hback 14 (by decide), hback 15 (by decide),
    recurrenceWord]

theorem extendSchedule_succ (n : Nat) (L : List Word) :
    extendSchedule (n + 1) L = nextScheduleWord (extendSchedule n L) :: extendSchedule n L := by
  induction n generalizing L with
  | zero => rfl
  | succ n ih => rw [extendSchedule, ih, extendSchedule]

/-- The first words of the schedule of a block, `n` of them grown behind those of the block. -/
def scheduleUpTo (n : Nat) (B : List Byte) : List Word := (extendSchedule n (beWords B).reverse).reverse

theorem scheduleUpTo_zero (B : List Byte) : scheduleUpTo 0 B = beWords B := List.reverse_reverse _

theorem scheduleUpTo_succ (n : Nat) (B : List Byte) :
    scheduleUpTo (n + 1) B = scheduleUpTo n B ++ [nextScheduleWord (scheduleUpTo n B).reverse] := by
  rw [scheduleUpTo, extendSchedule_succ, List.reverse_cons, scheduleUpTo, List.reverse_reverse]

section
variable {B : List Byte} (hB : B.length = 64)
include hB

theorem scheduleUpTo_length (n : Nat) : (scheduleUpTo n B).length = 16 + n := by
  induction n with
  | zero => rw [scheduleUpTo_zero, beWords_length, hB]
  | succ n ih => rw [scheduleUpTo_succ, List.length_append, ih, List.length_singleton, Nat.add_assoc]

/-- Growing a word keeps the ones before it and adds the one the recurrence gives. -/
theorem scheduleUpTo_meets (n : Nat) : MeetsSchedule B (16 + n) ((scheduleUpTo n B).getD · 0) := by
  induction n with
  | zero =>
    rw [scheduleUpTo_zero]
    exact ⟨fun t ht => beWords_getD (by rw [beWords_length, hB]; exact ht), fun t h16 ht => absurd ht (by omega)⟩
  | succ n ih =>
    have hlen := scheduleUpTo_length hB n
    have hold (i : Nat) (hi : i < 16 + n) : (scheduleUpTo (n + 1) B).getD i 0 = (scheduleUpTo n B).getD i 0 := by
      rw [scheduleUpTo_succ, List.getD_append _ _ _ _ (by omega)]
    have hnew : (scheduleUpTo (n + 1) B).getD (16 + n) 0 = recurrenceWord ((scheduleUpTo n B).getD · 0) (16 + n) := by
      rw [scheduleUpTo_succ, List.getD_append_right _ _ _ _ (by omega), nextScheduleWord_reverse (by omega), hlen,
        Nat.sub_self, List.getD_cons_zero]
    refine ⟨fun t ht => (hold t (by omega)).trans (ih.block t ht), fun t h16 ht => ?_⟩
    rw [recurrenceWord_congr h16 fun i hi => hold i (by omega)]
    obtain hlt | rfl := Nat.lt_succ_iff_lt_or_eq.1 ht
    · exact (hold t hlt).trans (ih.recurrence t h16 hlt)
    · exact hnew

theorem schedule_length : (schedule B).length = 64 := scheduleUpTo_length hB 48

theorem schedule_meets : MeetsSchedule B 64 ((schedule B).getD · 0) := scheduleUpTo_meets hB 48

/-- The schedule is the solution of its equations. -/
theorem schedule_eq_of_meets {W : Nat → Word} (hW : MeetsSchedule B 64 W) : schedule B = (List.range 64).map W := by
  refine List.ext_getElem (by simp [schedule_length hB]) fun t ht _ => ?_
  rw [List.getElem_map, List.getElem_range, ← (schedule_meets hB).unique hW t (schedule_length hB ▸ ht),
    List.getD_eq_getElem _ _ ht]

end

/-! ## The rounds (R115, R116) -/

@[simp] theorem roundConstants_length : roundConstants.length = 64 := rfl

/-- Working registers that go on by the round equation, with the constants `ks` and the words `W`, end where folding the
round over them does. -/
theorem foldl_compressRound {ks : List Word} {W : Nat → Word} {v : Nat → Working}
    (hv : ∀ t, t < ks.length → v (t + 1) = compressRound (v t) (ks.getD t 0, W t)) :
    (ks.zip ((List.range ks.length).map W)).foldl compressRound (v 0) = v ks.length := by
  induction ks generalizing W v with
  | nil => rfl
  | cons k ks ih =>
    have hfirst : v 1 = compressRound (v 0) (k, W 0) := hv 0 (Nat.succ_pos _)
    have hrest := ih (W := fun t => W (t + 1)) (v := fun t => v (t + 1)) fun t ht => hv (t + 1) (Nat.succ_lt_succ ht)
    rw [List.length_cons, List.range_succ_eq_map, List.map_cons, List.map_map, List.zip_cons_cons, List.foldl_cons,
      ← hfirst]
    exact hrest

/-- The 64 rounds end with the working registers after round 63 (R116). -/
theorem allRounds_eq {W : Nat → Word} {v : Nat → Working}
    (hv : ∀ t, t < 64 → v (t + 1) = compressRound (v t) (roundConstants.getD t 0, W t)) :
    allRounds (v 0) ((List.range 64).map W) = v 64 := foldl_compressRound hv

end Sys2Proof.Machine
end

section
/-! The statements of 40_compression.md. -/

namespace Sys2Proof.Proofs
open Sys2Proof.Machine

/-- Settles O12: the schedule solves its equations, zero words are the solution for the all-zero block, and the worked
example is evaluated. -/
theorem scheduleFollowsTheRecurrence : Obligations.ScheduleFollowsTheRecurrence := by
  refine ⟨fun B hB => ?_, ?_, by decide +kernel⟩
  · obtain ⟨hblock, hrecurrence⟩ := schedule_meets hB
    have hsome (t : Nat) (ht : t < 64) : (schedule B)[t]? = some ((schedule B).getD t 0) := by
      have hlt : t < (schedule B).length := by rw [schedule_length hB]; exact ht
      rw [List.getD_eq_getElem _ _ hlt, List.getElem?_eq_getElem hlt]
    exact ⟨schedule_length hB, fun t ht => (hsome t (by omega)).trans (congrArg some (hblock t ht)),
      fun t h16 ht => (hsome t ht).trans (congrArg some (hrecurrence t h16 ht))⟩
  · rw [schedule_eq_of_meets List.length_replicate (meetsSchedule_zero 64 64), List.map_const', List.length_range]

/-- Settles O13: the given words are the schedule, and the given registers those of the model's rounds. -/
theorem compressComputesTheSixtyFourRounds : Obligations.CompressComputesTheSixtyFourRounds := by
  intro H B W v hB hblock hrecurrence hfirst hround
  have hv0 : Working.ofHash H = v 0 := hfirst.symm
  rw [compress, schedule_eq_of_meets hB ⟨hblock, hrecurrence⟩, hv0, allRounds_eq hround, addWorking]

/-- Settles O15: a single block in front of whole blocks. -/
theorem compressStarFoldsTheBlocks : Obligations.CompressStarFoldsTheBlocks := by
  refine fun H => ⟨compressStar_nil H, fun B S hB _ => ?_⟩
  rw [compressStar_append H B S (by rw [hB]), compressStar_block H B hB]

end Sys2Proof.Proofs
end

section
/-! SUPPORT. The flushes of a feed, counted (41_block_buffer.md R143), and the bytes an UPDATE feeds to an open core
(R145), in one run or in several (R146). -/

namespace Sys2Proof.Machine

/-- The first `n` blocks are compressed alike whatever stands behind them (40_compression.md R121). -/
theorem compressBlocks_append_right {n : Nat} (H : HashState) (A S : List Byte) (hA : A.length = 64 * n) :
    compressBlocks n H (A ++ S) = compressBlocks n H A := by
  simpa [compressBlocks] using compressBlocks_append n 0 H A S hA

/-- `compress*` of the whole blocks at the front of `M` is one compression for each of them (R121). -/
theorem compressStar_wholeBlocks (H : HashState) (M : List Byte) :
    compressStar H (wholeBlocks M) = compressBlocks (M.length / 64) H M := by
  have hlen := wholeBlocks_length M
  have hq : (wholeBlocks M).length / 64 = M.length / 64 := by omega
  rw [compressStar, hq, ← compressBlocks_append_right H _ (blockRest M) hlen, wholeBlocks_append_blockRest]

/-- The data words of an UPDATE of `n` bytes carry `n` message bytes (30_encoding.md R77). -/
theorem messageOf_length {n : Nat} {ws : List Word} (hlen : ws.length = dataWordCount n) :
    (messageOf n ws).length = n := by
  rw [dataWordCount] at hlen
  rw [messageOf, List.length_take, flatMap_wordBytes_length]
  omega

/-- The bytes an open core takes in are fed and counted, and its answers go behind those waiting (R144, R145). -/
theorem State.takeLanes_emitAll_of_open {s : State} (hc : s.closed = false) (bs : List Byte) (vs : List Word) :
    (s.takeLanes bs).emitAll vs = { s.feed bs with
      cnt := s.cnt + BitVec.ofNat 64 (8 * bs.length)
      pending := s.pending ++ vs } := by
  rw [State.takeLanes_of_open hc, State.accept_spec, State.emitAll, State.feed_pending]

/-- A sequence in front of others runs with their words, when those run as the single sequence `vs`. -/
theorem runAll_cons_eq_runWords_append {more : List (List Word)} {vs : List Word}
    (hmore : ∀ t, runAll more t = runWords vs t) (ws : List Word) (s : State) :
    runAll (ws :: more) s = runWords (ws ++ vs) s := by
  induction ws generalizing s with
  | nil => exact hmore s
  | cons w ws ih =>
    rw [List.cons_append, runAll, runWords, runWords]
    cases stepWord w s with
    | next t => exact ih t
    | fault f => rfl
    | refused r => rfl

/-- Several word sequences, one after the other, run as all their words in a single sequence (43_control.md R212). -/
theorem runAll_eq_runWords_flatten (wss : List (List Word)) (s : State) : runAll wss s = runWords wss.flatten s := by
  induction wss generalizing s with
  | nil => rfl
  | cons ws more ih => exact runAll_cons_eq_runWords_append ih ws s

end Sys2Proof.Machine
end

section
/-! The statements of 41_block_buffer.md. -/

namespace Sys2Proof.Proofs
open Sys2Proof.Machine

/-- Settles O17: the buffered bytes and the fed ones are absorbed together. -/
theorem feedCompressesEveryWholeBlock : Obligations.FeedCompressesEveryWholeBlock := by
  intro s bs hbuf q
  have hq : (s.buf ++ bs).length = q := List.length_append
  obtain ⟨hhash, hrest⟩ := (State.absorbed_buf hbuf).feed bs
  refine ⟨?_, State.feed_length s bs hbuf, ?_⟩
  · rw [State.feed_frame, hhash, hrest, wholeBlocks, blockRest, hq]
  · rw [hhash, compressStar_wholeBlocks, hq]

/-- Settles O22: the run takes in its message and answers by `CLOSED`; a closed core takes in nothing. -/
theorem updateRunFeedsItsMessage : Obligations.UpdateRunFeedsItsMessage := by
  refine fun s n ws hd hlen => ⟨fun hc _ => ?_, fun hc => ?_⟩
  · rw [runWords_update hd hlen, State.emitStatus_eq_emitAll, State.takeLanes_emitAll_of_open hc,
      messageOf_length hlen, hc]
    rfl
  · rw [runWords_update hd hlen, State.takeLanes_of_closed hc, updateStatus, if_pos hc]
    rfl

/-- Settles O23: the sequences run as one, in which every UPDATE takes in its piece and answers OK. -/
theorem chunkBoundariesDoNotMatter : Obligations.ChunkBoundariesDoNotMatter := by
  intro s ps hd hc _ hlen
  rw [runAll_eq_runWords_flatten, ← List.flatMap_def, runWords_flatMap_updateWords hd hlen,
    State.takeLanes_emitAll_of_open hc, hc]
  rfl

/-- Settles O16: the two cases of `feedByte`. -/
theorem feedByteBuffersOrFlushes : Obligations.FeedByteBuffersOrFlushes := by
  intro s b
  obtain ⟨h63, e⟩ | ⟨h63, e⟩ := s.feedByte_cases b
  · exact ⟨fun hlt => absurd h63 hlt.ne, fun _ => e⟩
  · exact ⟨fun _ => e, fun heq => absurd heq h63⟩

end Sys2Proof.Proofs
end

section
/-! SUPPORT. The response words a step emits (43_control.md R192; 30_encoding.md R82). -/

namespace Sys2Proof.Machine

variable {s t : State} {w : Word} {i : Instr}

/-! ## What emits nothing -/

@[simp] theorem State.accept_pending (bs : List Byte) : (s.accept bs).pending = s.pending := by
  rw [State.accept_spec, State.feed_pending]

@[simp] theorem State.takeLanes_pending (bs : List Byte) : (s.takeLanes bs).pending = s.pending := by
  rw [State.takeLanes]
  split
  · rfl
  · exact State.accept_pending bs

@[simp] theorem State.padMessage_pending (s : State) : s.padMessage.pending = s.pending := by rw [State.padMessage_frame]

/-! ## The words of each instruction -/

/-- The three status words (30_encoding.md R81). -/
theorem statusWord_cases (st : Status) :
    statusWord st = 0x00000000#32 ∨ statusWord st = 0x00000001#32 ∨ statusWord st = 0x00000002#32 := by
  cases st with
  | ok => exact .inl rfl
  | alreadyFinalized => exact .inr (.inl rfl)
  | illegalCommand => exact .inr (.inr rfl)

/-- The response words of a step that runs an instruction (R192). Only `DATA(r)` runs a data word. -/
def State.answer (s : State) : Instr → List Word
  | .init => [statusWord .ok]
  | .update n => if n = 0 then [statusWord (updateStatus s.closed)] else []
  | .finalize => statusWord .ok :: digestWords (if s.closed then s.hash else s.padMessage.hash)
  | .illegalOp0 _ | .illegalInitArg _ | .illegalFinalizeArg _ | .illegalOp4to7 _ _ | .illegalOp8toF _ _ =>
    [statusWord .illegalCommand]
  | .data _ _ _ _ =>
    match s.dec with
    | .cmd => []
    | .data r => if r ≤ 4 then [statusWord (updateStatus s.closed)] else []

theorem State.answer_of_isIllegal (h : i.isIllegal = true) : s.answer i = [statusWord .illegalCommand] := by
  cases i with
  | init | update | finalize | data => cases h
  | _ => rfl

/-- A data word is answered by what is left of its UPDATE, whatever its bits. -/
theorem State.answer_decode_data {r : Nat} (hd : s.dec = .data r) (w : Word) :
    s.answer (decode s.dec w) = if r ≤ 4 then [statusWord (updateStatus s.closed)] else [] := by
  rw [hd, decode, decodeData, State.answer, hd]

/-- An answer is empty, one status word, or a status word with the eight digest words. -/
theorem State.answer_cases (s : State) (i : Instr) :
    s.answer i = [] ∨ (∃ st, s.answer i = [statusWord st]) ∨ ∃ H, s.answer i = statusWord .ok :: digestWords H := by
  cases i with
  | update n =>
    rw [State.answer]
    split
    · exact .inr (.inl ⟨_, rfl⟩)
    · exact .inl rfl
  | finalize => exact .inr (.inr ⟨_, rfl⟩)
  | data b0 b1 b2 b3 =>
    rw [State.answer]
    split
    · exact .inl rfl
    · split
      · exact .inr (.inl ⟨_, rfl⟩)
      · exact .inl rfl
  | _ => exact .inr (.inl ⟨_, rfl⟩)

theorem State.answer_length_cases (s : State) (i : Instr) :
    (s.answer i).length = 0 ∨ (s.answer i).length = 1 ∨ (s.answer i).length = 9 := by
  obtain e | ⟨st, e⟩ | ⟨H, e⟩ := s.answer_cases i
  · exact .inl (by rw [e, List.length_nil])
  · exact .inr (.inl (by rw [e, List.length_singleton]))
  · exact .inr (.inr (by rw [e, List.length_cons, digestWords_length]))

/-- The first word of an answer is a status word (R80). -/
theorem State.answer_head?_status {v : Word} (h : (s.answer i).head? = some v) : ∃ st, v = statusWord st := by
  obtain e | ⟨st, e⟩ | ⟨H, e⟩ := s.answer_cases i <;> rw [e] at h <;> cases h
  · exact ⟨st, rfl⟩
  · exact ⟨.ok, rfl⟩

/-! ## Every word -/

theorem execUpdate_pending {n : BitVec 28} (h : execUpdate n s = .next t) :
    t.pending = s.pending ++ s.answer (.update n) := by
  have hn : byteCount n = 0 ↔ n = 0 := BitVec.toNat_inj (y := 0#28)
  rw [execUpdate] at h
  rw [State.answer]
  split at h
  next h0 =>
    cases h
    rw [if_pos (hn.1 h0), State.emitStatus_pending]
  next h0 =>
    cases h
    rw [if_neg (mt hn.2 h0), State.setDec_pending, List.append_nil]

theorem execFinalize_pending (h : execFinalize s = .next t) : t.pending = s.pending ++ s.answer .finalize := by
  cases hc : s.closed with
  | true =>
    rw [execFinalize_of_closed hc, Host.Outcome.next.injEq] at h
    simp [← h, State.answer, hc]
  | false =>
    rw [execFinalize_of_open hc, Host.Outcome.next.injEq] at h
    simp [← h, State.answer, hc]

theorem stepWord_data_pending {r : Nat} (hd : s.dec = .data r) (h : stepWord w s = .next t) :
    t.pending = s.pending ++ s.answer (decode s.dec w) := by
  rw [stepWord_data hd] at h
  rw [State.answer_decode_data hd]
  split at h
  next h4 =>
    cases h
    rw [if_pos h4, State.emitStatus_pending, State.setDec_pending, State.takeLanes_pending]
  next h4 =>
    cases h
    rw [if_neg h4, State.setDec_pending, State.takeLanes_pending, List.append_nil]

/-- A step on a word emits its answer behind the words not yet taken (R192). -/
theorem stepWord_pending (h : stepWord w s = .next t) : t.pending = s.pending ++ s.answer (decode s.dec w) := by
  obtain ⟨-, ⟨hw, e⟩ | ⟨n, hw, e⟩ | ⟨hw, e⟩ | ⟨hw, e⟩⟩ | ⟨r, hd, -⟩ := stepWord_cases w s
  · rw [e] at h
    cases h
    rw [hw]
    rfl
  · rw [hw]
    exact execUpdate_pending (e.symm.trans h)
  · rw [hw]
    exact execFinalize_pending (e.symm.trans h)
  · rw [e] at h
    cases h
    rw [State.answer_of_isIllegal hw, State.reportError_pending]
  · exact stepWord_data_pending hd h

end Sys2Proof.Machine
end

section
/-! The statements of 43_control.md. -/

namespace Sys2Proof.Proofs
open Sys2Proof.Machine

/-- Settles O43: every word advances the core, which emits its answer: nothing, a status word, or a status word and a
digest. -/
theorem stepIsTotalOnWords : Obligations.StepIsTotalOnWords := by
  intro s w hI
  obtain ⟨t, ht, hI', -⟩ := stepWord_advances hI w
  exact ⟨t, s.answer (decode s.dec w), ht, hI', stepWord_pending ht, s.answer_length_cases _⟩

/-- Settles O44: the emitted words are the answer, whose length and first word each instruction decides. -/
theorem responseCountFollowsTheWord : Obligations.ResponseCountFollowsTheWord := by
  intro s t w h
  refine ⟨s.answer (decode s.dec w), stepWord_pending h, fun r hd => ?_, fun n hw => ?_, fun hw => ?_, fun hw => ?_,
    fun v hv => ?_⟩
  · rw [State.answer_decode_data hd, apply_ite List.length, List.length_singleton, List.length_nil]
  · rw [hw, State.answer, apply_ite List.length, List.length_singleton, List.length_nil]
  · rw [hw, State.answer, List.length_cons, digestWords_length]
  · obtain hw | hw := hw
    · rw [hw, State.answer, List.length_singleton]
    · rw [State.answer_of_isIllegal hw, List.length_singleton]
  · obtain ⟨st, rfl⟩ := State.answer_head?_status hv
    exact statusWord_cases st

end Sys2Proof.Proofs
end

section
/-! The statements of 70_reset_and_hazards.md. -/

namespace Sys2Proof.Machine

/-- The step on an offered reset is the reset event, whether or not a reset has come before (R250, R253). -/
theorem step_of_input_reset {s : State} {rest : List Input} (h : s.input = .reset :: rest) :
    step s = .next { s with input := rest }.resetEvent := by
  rw [step, h]

end Sys2Proof.Machine

namespace Sys2Proof.Proofs
open Sys2Proof.Machine

/-- Settles O38: the step is the reset event, which leaves a fresh hasher and a prefix of the untaken responses. -/
theorem resetEventRestoresTheResetState : Obligations.ResetEventRestoresTheResetState := by
  intro s rest h
  have hprefix : ∃ k, { s with input := rest }.resetEvent.pending = s.pending.take k :=
    ⟨Config.resetRspDelivery s.resets, State.resetEvent_pending _⟩
  exact ⟨{ s with input := rest }.resetEvent, step_of_input_reset h, State.resetEvent_hash _, State.resetEvent_buf _,
    State.resetEvent_cnt _, State.resetEvent_closed _, State.resetEvent_dec _, State.resetEvent_taken _, hprefix,
    State.resetEvent_input _, State.resetEvent_everReset _⟩

end Sys2Proof.Proofs
end

section
/-! SUPPORT. Decoding and encoding undo each other, a command word by its fields and a data word by its byte lanes
(30_encoding.md R70 to R79); the words read as UPDATE, by mask (R75); and the words the disassembler follows through an
UPDATE (R78, R94). -/

namespace Sys2Proof

/-! ## Command words -/

/-- From `OP = 4` on there are the two reserved ranges only (R79). -/
theorem decodeCommand_commandWord_of_four_le {op : BitVec 4} (h : 4 ≤ op.toNat) (arg : BitVec 28) :
    decodeCommand (commandWord op arg) =
      if op.toNat < 8 then .illegalOp4to7 op arg else .illegalOp8toF op arg := by
  have hne {k : BitVec 4} (hk : k.toNat < 4) : op ≠ k := fun e => by rw [e] at h; omega
  rw [decodeCommand, Laws.opField_commandWord, argField_commandWord, if_neg (hne (by decide)), if_neg (hne (by decide)),
    if_neg (hne (by decide)), if_neg (hne (by decide))]
  rfl

/-- A well-formed command comes back from its word (R72, R79). -/
theorem decodeCommand_encode {i : Instr} (hwf : i.wf = true) (hcmd : i.isData = false) :
    decodeCommand (encode i) = i := by
  cases i with
  | init => rfl
  | update n => exact decodeCommand_encode_update n
  | finalize => rfl
  | illegalOp0 arg => simp [encode, decodeCommand, Laws.opField_commandWord, argField_commandWord]
  | illegalInitArg arg =>
    have harg : arg ≠ 0#28 := bne_iff_ne.1 hwf
    simp [encode, decodeCommand, Laws.opField_commandWord, argField_commandWord, harg]
  | illegalFinalizeArg arg =>
    have harg : arg ≠ 0#28 := bne_iff_ne.1 hwf
    simp [encode, decodeCommand, Laws.opField_commandWord, argField_commandWord, harg]
  | illegalOp4to7 op arg =>
    obtain ⟨h4, h7⟩ : 4 ≤ op.toNat ∧ op.toNat ≤ 7 := by simpa [Instr.wf] using hwf
    rw [encode, decodeCommand_commandWord_of_four_le h4, if_pos (Nat.lt_succ_of_le h7)]
  | illegalOp8toF op arg =>
    have h8 : 8 ≤ op.toNat := by simpa [Instr.wf] using hwf
    rw [encode, decodeCommand_commandWord_of_four_le (by omega), if_neg (Nat.not_lt_of_le h8)]
  | data => cases hcmd

theorem decodeCommand_wf (w : Word) : (decodeCommand w).wf = true := by
  unfold decodeCommand
  simp only [← BitVec.toNat_inj, BitVec.lt_def, BitVec.toNat_ofNat, Nat.reducePow, Nat.reduceMod]
  split_ifs with h0 h1 harg h2 h3 harg h8
  · rfl
  · rfl
  · simpa [Instr.wf, ← BitVec.toNat_inj] using harg
  · rfl
  · rfl
  · simpa [Instr.wf, ← BitVec.toNat_inj] using harg
  · simp [Instr.wf]
    omega
  · simpa [Instr.wf] using h8

/-- No bit of a command word is lost in its instruction (R70). -/
theorem encode_decodeCommand (w : Word) : encode (decodeCommand w) = w := by
  have hw := Machine.commandWord_fields w
  unfold decodeCommand
  split_ifs with h0 h1 harg h2 h3 harg h8
  · rwa [h0] at hw
  · rwa [h1, harg] at hw
  · rwa [h1] at hw
  · rwa [h2] at hw
  · rwa [h3, harg] at hw
  · rwa [h3] at hw
  · exact hw
  · exact hw

/-! ## Data words -/

/-- The lanes of a data word come back from it (R77; 20_memory.md R50, R53). -/
theorem decodeData_be32 (b0 b1 b2 b3 : Byte) : decodeData (Machine.be32 b0 b1 b2 b3) = .data b0 b1 b2 b3 := by
  have hlanes := Machine.wordBytes_be32 b0 b1 b2 b3
  simp only [Machine.wordBytes, List.cons.injEq, and_true] at hlanes
  obtain ⟨h0, h1, h2, h3⟩ := hlanes
  rw [decodeData, h0, h1, h2, h3]

/-- No bit of a data word is lost in its lanes (20_memory.md R50, R53). -/
theorem encode_decodeData (w : Word) : encode (decodeData w) = w := by
  have h01 : Machine.byteOf w 0 ++ Machine.byteOf w 1 = w.extractLsb' 16 16 :=
    BitVec.extractLsb'_append_extractLsb'_eq_extractLsb' rfl
  have h012 : w.extractLsb' 16 16 ++ Machine.byteOf w 2 = w.extractLsb' 8 24 :=
    BitVec.extractLsb'_append_extractLsb'_eq_extractLsb' rfl
  have h0123 : w.extractLsb' 8 24 ++ Machine.byteOf w 3 = w.extractLsb' 0 32 :=
    BitVec.extractLsb'_append_extractLsb'_eq_extractLsb' rfl
  rw [decodeData, encode, Machine.be32, h01, h012, h0123, BitVec.extractLsb'_eq_self]

/-! ## Each decoder state (R71) -/

theorem decode_encode {i : Instr} {d : Dec} (hwf : i.wf = true) (hreads : d.reads i = true) :
    decode d (encode i) = i := by
  cases d with
  | cmd => exact decodeCommand_encode hwf (by simpa [Dec.reads] using hreads)
  | data r =>
    cases i with
    | data b0 b1 b2 b3 => exact decodeData_be32 b0 b1 b2 b3
    | _ => cases hreads

theorem decode_wf (d : Dec) (w : Word) : (decode d w).wf = true := by
  cases d with
  | cmd => exact decodeCommand_wf w
  | data r => rfl

theorem reads_decode (d : Dec) (w : Word) : d.reads (decode d w) = true := by
  cases d with
  | cmd => rw [Dec.reads, decode, decodeCommand_isData, Bool.not_false]
  | data r => rfl

theorem encode_decode (d : Dec) (w : Word) : encode (decode d w) = w := by
  cases d with
  | cmd => exact encode_decodeCommand w
  | data r => exact encode_decodeData w

/-! ## The words of UPDATE (R75) -/

theorem decodeCommand_eq_update_iff (w : Word) (n : BitVec 28) :
    decodeCommand w = .update n ↔ opField w = 0x2#4 ∧ argField w = n := by
  refine ⟨fun h => ?_, fun ⟨hop, harg⟩ => ?_⟩
  · have hw : encode (.update n) = w := by rw [← h, encode_decodeCommand]
    rw [← hw]
    exact ⟨Laws.OpField.update n, argField_commandWord _ n⟩
  · rw [← Machine.commandWord_fields w, hop, harg]
    exact decodeCommand_encode_update n

/-- The mask of R75 keeps `OP` and clears `ARG`. -/
theorem and_updateMask (w : Word) : w &&& 0xF0000000#32 = commandWord (opField w) 0#28 := by
  have hmask : 0xF0000000#32 = BitVec.allOnes 4 ++ 0#28 := by decide
  have hw : w = opField w ++ argField w := (Machine.commandWord_fields w).symm
  conv_lhs => rw [hw, hmask, BitVec.and_append, BitVec.and_allOnes, BitVec.and_zero]
  rw [commandWord]

/-- The match and mask of R75 look at `OP` alone. -/
theorem and_updateMask_eq_iff (w : Word) : w &&& 0xF0000000#32 = 0x20000000#32 ↔ opField w = 0x2#4 := by
  have hmatch : 0x20000000#32 = commandWord 0x2#4 0#28 := by decide
  rw [and_updateMask, hmatch]
  refine ⟨fun h => ?_, fun h => by rw [h]⟩
  rw [← Laws.opField_commandWord (opField w) 0#28, h, Laws.opField_commandWord]

/-- A command word is its opcode bits or its `ARG` (R70). -/
theorem commandWord_eq_or (op : BitVec 4) (arg : BitVec 28) :
    commandWord op arg = op.shiftLeftZeroExtend 28 ||| arg.setWidth 32 := by
  rw [commandWord, BitVec.append_def, BitVec.setWidth'_eq]

/-! ## Following `DEC` (R94) -/

/-- The command word of UPDATE opens its data words, if it has any (R78). -/
theorem Dec.after_encode_update (n : BitVec 28) :
    Dec.cmd.after (encode (.update n)) = if n = 0#28 then .cmd else .data n.toNat := by
  have hop : opField (encode (.update n)) = 0x2#4 := Laws.OpField.update n
  have harg : argField (encode (.update n)) = n := argField_commandWord _ n
  rw [Dec.after, hop, harg]
  by_cases hn : n = 0#28
  · simp [hn]
  · simp [hn]

namespace Machine

/-- The data words of an UPDATE are read as data, and `DEC` is `CMD` again after them, whatever they hold (R78, R94). -/
theorem disassemble_data {r : Nat} {ws : List Word} (hr : 1 ≤ r) (hlen : ws.length = dataWordCount r) :
    disassemble (.data r) ws = ws.map decodeData ∧ ws.foldl Dec.after (.data r) = .cmd := by
  induction ws generalizing r with
  | nil =>
    rw [List.length_nil, dataWordCount] at hlen
    omega
  | cons w ws ih =>
    rw [List.length_cons, dataWordCount] at hlen
    rw [disassemble, List.map_cons, List.foldl_cons, Dec.after, decode]
    by_cases h4 : r ≤ 4
    · obtain rfl : ws = [] := List.eq_nil_of_length_eq_zero (by omega)
      rw [if_pos h4]
      exact ⟨rfl, rfl⟩
    · obtain ⟨hdis, hdec⟩ := ih (r := r - 4) (by omega) (by rw [dataWordCount]; omega)
      rw [if_neg h4, hdis, hdec]
      exact ⟨rfl, rfl⟩

/-- A whole UPDATE is read as its command and its data words (R78, R94). -/
theorem disassemble_update {n : BitVec 28} {ws : List Word} (hlen : ws.length = dataWordCount n.toNat) :
    disassemble .cmd (encode (.update n) :: ws) = .update n :: ws.map decodeData ∧
    (encode (.update n) :: ws).foldl Dec.after .cmd = .cmd := by
  rw [disassemble, List.foldl_cons, Dec.after_encode_update, decode, decodeCommand_encode_update]
  by_cases hn : n = 0#28
  · obtain rfl : ws = [] := List.eq_nil_of_length_eq_zero (by rw [hlen, hn]; rfl)
    rw [if_pos hn]
    exact ⟨rfl, rfl⟩
  · have hpos : n.toNat ≠ 0 := mt (BitVec.toNat_inj (y := 0#28)).1 hn
    obtain ⟨hdis, hdec⟩ := disassemble_data (Nat.one_le_iff_ne_zero.2 hpos) hlen
    rw [if_neg hn, hdis]
    exact ⟨rfl, hdec⟩

end Machine
end Sys2Proof
end

section
/-! The round trips of 30_encoding.md, and its other statements about the words of an UPDATE. -/

namespace Sys2Proof.Proofs
open Sys2Proof.Machine

/-- Settles O1: a command comes back from its fields, a data word from its lanes. -/
theorem decodeEncodeRoundTrip : Obligations.DecodeEncodeRoundTrip :=
  fun _ _ hwf hreads => decode_encode hwf hreads

/-- Settles O2: the fields of a command word and the lanes of a data word hold all its bits. -/
theorem encodeDecodeRoundTrip : Obligations.EncodeDecodeRoundTrip :=
  fun d w => ⟨decode_wf d w, reads_decode d w, encode_decode d w⟩

/-- Settles O4: match and mask ask for `OP = 0x2`, and the count is `ARG`. -/
theorem updateMatchesItsMaskAndCountsArg : Obligations.UpdateMatchesItsMaskAndCountsArg := by
  refine ⟨fun w => ?_, fun w n h => ?_, fun n => commandWord_eq_or 0x2#4 n⟩
  · simp [decode, decodeCommand_eq_update_iff, and_updateMask_eq_iff]
  · obtain ⟨-, rfl⟩ := (decodeCommand_eq_update_iff w n).1 h
    exact ⟨argField_toNat w, by rw [commandLength, argField_toNat]⟩

/-- Settles O7: byte `4q + k` of the data words is byte `k` of word `q`, and the message is the first `n` of them. -/
theorem messageBytesArePackedBigEndian : Obligations.MessageBytesArePackedBigEndian := by
  refine fun ws n q k hlen => ⟨messageOf_length hlen, fun hk hn => ?_⟩
  have hq : q < ws.length := by
    rw [hlen, dataWordCount]
    omega
  have hword : ws[q]? = some (ws.getD q 0) := by rw [List.getD_eq_getElem _ _ hq, List.getElem?_eq_getElem hq]
  rw [messageOf, List.getElem?_take_of_lt hn, flatMap_wordBytes_getElem? _ _ (Nat.lt_succ_of_le hk), hword,
    Option.map_some, byteOf]

/-- Settles O52: an assembled UPDATE is its command and as many data words as its count asks for. -/
theorem disassemblerFollowsAnUpdate : Obligations.DisassemblerFollowsAnUpdate := by
  intro bs hbs
  have hn : (BitVec.ofNat 28 bs.length).toNat = bs.length := Nat.mod_eq_of_lt (Nat.lt_of_le_pred (by decide) hbs)
  obtain ⟨hdis, hdec⟩ := disassemble_update (n := BitVec.ofNat 28 bs.length) (by rw [hn, dataWords_length])
  refine ⟨hdis, hdec, ?_⟩
  rw [updateWords, List.length_cons, dataWords_length, commandLength, hn, dataWordCount, Nat.add_comm]

end Sys2Proof.Proofs
end

section
/-! SUPPORT. The word operations bit by bit (40_compression.md R104 to R110). -/

namespace Sys2Proof.Machine

/-- The model's rotation is the bit vector's own (R104). -/
theorem rotr_eq_rotateRight (x : Word) {n : Nat} (hn : n < 32) : rotr x n = x.rotateRight n := by
  rw [BitVec.rotateRight_def, Nat.mod_eq_of_lt hn, rotr]

theorem rotr_getLsbD (x : Word) {n i : Nat} (hn : n < 32) (hi : i < 32) :
    (rotr x n).getLsbD i = x.getLsbD ((i + n) % 32) := by
  rw [rotr_eq_rotateRight x hn, BitVec.getLsbD_rotateRight, Nat.mod_eq_of_lt hn]
  by_cases hlow : i < 32 - n
  · have hpos : (i + n) % 32 = n + i := by omega
    simp [hlow, hpos]
  · have hpos : (i + n) % 32 = i - (32 - n) := by omega
    simp [hlow, hpos, hi]

theorem shr_getLsbD (x : Word) (n i : Nat) :
    (shr x n).getLsbD i = if i + n ≤ 31 then x.getLsbD (i + n) else false := by
  rw [shr, BitVec.getLsbD_ushiftRight, Nat.add_comm n i]
  split
  · rfl
  next h => exact BitVec.getLsbD_of_ge _ _ (by omega)

end Sys2Proof.Machine
end

section
/-! The statements of 40_compression.md §1, §2 and §5. -/

namespace Sys2Proof.Proofs
open Sys2Proof.Machine

/-- Settles O9: `rotr` and `shr`, bit by bit. -/
theorem rotateAndShiftMoveBits : Obligations.RotateAndShiftMoveBits :=
  fun x n i _ hn hi => ⟨rotr_getLsbD x hn hi, shr_getLsbD x n i⟩

/-- Settles O10: every rotation and shift of a sigma function moves its bits by its own amount. -/
theorem sigmaFunctionsMixRotatedBits : Obligations.SigmaFunctionsMixRotatedBits := by
  intro x i hi
  have hrot {n : Nat} (hn : n < 32) : (rotr x n).getLsbD i = x.getLsbD ((i + n) % 32) := rotr_getLsbD x hn hi
  refine ⟨?_, ?_, ?_, ?_⟩
  · rw [smallSigma0, BitVec.getLsbD_xor, BitVec.getLsbD_xor, hrot (by decide), hrot (by decide), shr_getLsbD]
  · rw [smallSigma1, BitVec.getLsbD_xor, BitVec.getLsbD_xor, hrot (by decide), hrot (by decide), shr_getLsbD]
  · rw [bigSigma0, BitVec.getLsbD_xor, BitVec.getLsbD_xor, hrot (by decide), hrot (by decide), hrot (by decide)]
  · rw [bigSigma1, BitVec.getLsbD_xor, BitVec.getLsbD_xor, hrot (by decide), hrot (by decide), hrot (by decide)]

/-- Settles O11: the bit formulas of the two functions, over the eight values of three bits. -/
theorem chooseSelectsAndMajorityVotes : Obligations.ChooseSelectsAndMajorityVotes := by
  intro x y z i hi
  have hchoose (a b c : Bool) : ((a && b) ^^ (!a && c)) = if a then b else c := by
    cases a <;> simp
  have hmajority (a b c : Bool) :
      ((a && b) ^^ (a && c) ^^ (b && c)) = decide (2 ≤ a.toNat + b.toNat + c.toNat) := by
    revert a b c
    decide
  refine ⟨?_, ?_⟩
  · rw [choose, BitVec.getLsbD_xor, BitVec.getLsbD_and, BitVec.getLsbD_and, BitVec.getLsbD_not, decide_eq_true hi,
      Bool.true_and, hchoose]
  · rw [majority, BitVec.getLsbD_xor, BitVec.getLsbD_xor, BitVec.getLsbD_and, BitVec.getLsbD_and, BitVec.getLsbD_and,
      hmajority]

/-- Settles O14: the four values of R120, evaluated. -/
theorem compressWorkedValuesHold : Obligations.CompressWorkedValuesHold :=
  ⟨by decide +kernel, by decide +kernel, by decide +kernel, by decide +kernel⟩

end Sys2Proof.Proofs
end

section
/-! SUPPORT. A data word of an open core and FINALIZE, as the fields they write (41_block_buffer.md R145;
42_finalizer.md R165, R166, R169). -/

namespace Sys2Proof.Machine

variable {s : State} {M : List Byte}

/-! ## UPDATE's command word and a data word -/

/-- An open core answers an UPDATE with OK (R145). -/
theorem statusWord_updateStatus_open (hc : s.closed = false) :
    statusWord (updateStatus s.closed) = 0x00000000#32 := by
  rw [hc]
  rfl

/-- A closed core answers an UPDATE with ALREADY_FINALIZED (R145). -/
theorem statusWord_updateStatus_closed (hc : s.closed = true) :
    statusWord (updateStatus s.closed) = 0x00000001#32 := by
  rw [hc]
  rfl

/-- UPDATE 0 answers at once (R145). -/
theorem execUpdate_zero (s : State) : execUpdate 0 s = .next (s.emitAll [statusWord (updateStatus s.closed)]) := rfl

/-- An UPDATE with message bytes waits for them (R145). -/
theorem execUpdate_of_ne_zero {n : BitVec 28} (hn : n ≠ 0) : execUpdate n s = .next (s.setDec (.data n.toNat)) :=
  if_neg (mt (BitVec.toNat_inj (y := 0#28)).1 hn)

/-- At most 64 bytes behind a buffer that holds no whole block flush it at most once (R140, R143). -/
theorem State.feed_at_most_one_flush {bs : List Byte} (h : s.buf.length ≤ 63) (hbs : bs.length ≤ 64) :
    s.feed bs = { s with
      hash := if 64 ≤ (s.buf ++ bs).length then compress s.hash ((s.buf ++ bs).take 64) else s.hash
      buf := if 64 ≤ (s.buf ++ bs).length then (s.buf ++ bs).drop 64 else s.buf ++ bs } := by
  have hlen : (s.buf ++ bs).length = s.buf.length + bs.length := List.length_append
  obtain ⟨hhash, hbuf⟩ := (State.absorbed_buf h).feed bs
  rw [State.feed_frame, hhash, hbuf]
  split
  next hfull =>
    have hq : (s.buf ++ bs).length / 64 = 1 := by omega
    have hblock : ((s.buf ++ bs).take 64).length = 64 := List.length_take_of_le hfull
    rw [wholeBlocks, blockRest, hq, Nat.mul_one, compressStar_block _ _ hblock]
  next hfull =>
    have hshort : (s.buf ++ bs).length ≤ 63 := by omega
    rw [wholeBlocks_of_short hshort, blockRest_of_short hshort, compressStar_nil]

/-- A data word in `DATA(r)` takes in its message lanes, and the last one answers by `CLOSED` (R145). -/
theorem execData_eq {r : Nat} (hd : s.dec = .data r) (b0 b1 b2 b3 : Byte) :
    exec (.data b0 b1 b2 b3) s =
      .next { (s.takeLanes ([b0, b1, b2, b3].take (min 4 r))) with
        dec := if r ≤ 4 then .cmd else .data (r - 4)
        pending := if r ≤ 4 then s.pending ++ [statusWord (updateStatus s.closed)] else s.pending } := by
  have hword := stepWord_data hd (be32 b0 b1 b2 b3)
  rw [stepWord_eq, hd, decode, decodeData_be32, wordBytes_be32] at hword
  rw [hword]
  split
  next h4 => simp [State.emitStatus, State.emit, State.setDec, laneCount, h4]
  next h4 => simp [State.setDec, laneCount]

/-! ## FINALIZE -/

theorem State.Represents.buf_length (h : s.Represents M) : s.buf.length ≤ 63 := by
  cases hc : s.closed with
  | true =>
    obtain ⟨-, -, hbuf⟩ := (State.represents_closed hc).1 h
    simp [hbuf]
  | false =>
    obtain ⟨-, habs⟩ := (State.represents_open hc).1 h
    rw [habs.buf_length]
    omega

/-- FINALIZE of an open core: the buffered bytes are compressed with their padding, and the core is closed (R166). -/
theorem execFinalize_open (hc : s.closed = false) (hbuf : s.buf.length ≤ 63) :
    execFinalize s = .next { s with
      hash := compressStar s.hash (s.buf ++ padding s.buf.length s.cnt)
      buf := []
      closed := true
      pending := s.pending ++
        0x00000000#32 :: digestWords (compressStar s.hash (s.buf ++ padding s.buf.length s.cnt)) } := by
  obtain ⟨hhash, hempty⟩ := State.padMessage_spec hbuf
  rw [execFinalize_of_open hc, State.padMessage_frame, hhash, hempty]
  simp [State.close, State.emitStatus, State.emit, State.emitAll, statusWord]

/-- FINALIZE of a closed core answers and nothing else (R166). -/
theorem execFinalize_closed (hc : s.closed = true) :
    execFinalize s = .next { s with pending := s.pending ++ 0x00000000#32 :: digestWords s.hash } := by
  rw [execFinalize_of_closed hc]
  simp [State.emitStatus, State.emit, State.emitAll, statusWord]

/-- From every state FINALIZE leaves a closed core, and answers OK and the digest that core holds (R166). -/
theorem execFinalize_answers {t : State} (h : execFinalize s = .next t) :
    t.closed = true ∧ t.pending = s.pending ++ 0x00000000#32 :: digestWords t.hash := by
  cases hc : s.closed with
  | true =>
    rw [execFinalize_closed hc, Host.Outcome.next.injEq] at h
    subst h
    exact ⟨hc, rfl⟩
  | false =>
    rw [execFinalize_of_open hc, Host.Outcome.next.injEq] at h
    subst h
    simp [statusWord]

/-- Two blocks are compressed one after the other (40_compression.md R121). -/
theorem compressStar_two_blocks (H : HashState) {P : List Byte} (hP : P.length = 128) :
    compressStar H P = compress (compress H (P.take 64)) (P.drop 64) := by
  have hfirst : (P.take 64).length = 64 := List.length_take_of_le (by omega)
  have hsecond : (P.drop 64).length = 64 := by rw [List.length_drop]; omega
  conv_lhs => rw [← List.take_append_drop 64 P]
  rw [compressStar_append _ _ _ (by rw [hfirst]), compressStar_block _ _ hfirst, compressStar_block _ _ hsecond]

end Sys2Proof.Machine
end

section
/-! The statements of 41_block_buffer.md §1 and §2, about single words. -/

namespace Sys2Proof.Proofs
open Sys2Proof.Machine

/-- Settles O19: the lanes are fed with at most one flush, and counted. -/
theorem dataWordOfOpenCoreIsAccepted : Obligations.DataWordOfOpenCoreIsAccepted := by
  intro b0 b1 b2 b3 s r hd hc hbuf bs all
  have hbs : bs.length ≤ 64 := (List.length_take_le' _ _).trans (by decide : 4 ≤ 64)
  rw [execData_eq hd, statusWord_updateStatus_open hc, State.takeLanes_of_open hc, State.accept_spec,
    State.feed_at_most_one_flush hbuf hbs]

/-- Settles O20: a closed core takes in no lanes. -/
theorem dataWordOfClosedCoreIsDiscarded : Obligations.DataWordOfClosedCoreIsDiscarded := by
  intro b0 b1 b2 b3 s r hd hc
  rw [execData_eq hd, statusWord_updateStatus_closed hc, State.takeLanes_of_closed hc]

/-- Settles O18: the byte count is 0 exactly when `n` is, and `CLOSED` decides the answer. -/
theorem updateCommandAnswersOrOpensData : Obligations.UpdateCommandAnswersOrOpensData := by
  refine fun n s => ⟨fun hn hc => ?_, fun hn hc => ?_, fun hn => ?_⟩
  · rw [exec, hn, execUpdate_zero, statusWord_updateStatus_open hc, State.emitAll]
  · rw [exec, hn, execUpdate_zero, statusWord_updateStatus_closed hc, State.emitAll]
  · rw [exec, execUpdate_of_ne_zero hn, State.setDec]

/-- Settles O21: the meaning of a data word looks at `DEC` first. -/
theorem dataWordOutsideUpdateIsRefused : Obligations.DataWordOutsideUpdateIsRefused := by
  intro b0 b1 b2 b3 s hd
  rw [exec, execData, hd]

end Sys2Proof.Proofs
end

section
/-! The statements of 42_finalizer.md, and the digests of 95_test_vectors.md §1. -/

namespace Sys2Proof.Proofs
open Sys2Proof.Machine

/-- Settles O24: marker byte, zero fill and length field, by position. -/
theorem paddingFillsWholeBlocks : Obligations.PaddingFillsWholeBlocks := by
  refine fun p L => ⟨?_, rfl, padding_length p L, fun k hk1 hk => ?_, ?_⟩
  · rw [padding_length, zeroCount]
    omega
  · obtain ⟨j, rfl⟩ := Nat.exists_eq_add_one_of_ne_zero (Nat.one_le_iff_ne_zero.1 hk1)
    have hj : j < zeroCount p := by omega
    rw [padding, List.getElem?_cons_succ, List.getElem?_append_left (by rwa [List.length_replicate]),
      List.getElem?_replicate_of_lt hj]
  · rw [zeroCount]
    split <;> omega

/-- Settles O26: the two cases of FINALIZE. -/
theorem finalizePadsClosesAndEmitsTheDigest : Obligations.FinalizePadsClosesAndEmitsTheDigest :=
  fun _ => ⟨fun hc hbuf => execFinalize_open hc hbuf, fun hc => execFinalize_closed hc⟩

/-- Settles O27: the number of buffered bytes decides how many blocks they fill with their padding. -/
theorem finalizeCompressesOneOrTwoBlocks : Obligations.FinalizeCompressesOneOrTwoBlocks := by
  refine fun s hc hbuf => ⟨_, execFinalize_open hc hbuf, fun hone => ?_, fun htwo => ?_⟩
  · have hP : (s.buf ++ padding s.buf.length s.cnt).length = 64 := by
      rw [List.length_append, padding_length, zeroCount]
      omega
    exact ⟨hP, compressStar_block _ _ hP⟩
  · have hP : (s.buf ++ padding s.buf.length s.cnt).length = 128 := by
      rw [List.length_append, padding_length, zeroCount]
      omega
    exact ⟨hP, compressStar_two_blocks _ hP⟩

/-- Settles O28: the nine words are OK and the digest that the closed core keeps. -/
theorem finalizeIsIdempotent : Obligations.FinalizeIsIdempotent := by
  intro s t h
  obtain ⟨hc, hpending⟩ := execFinalize_answers h
  exact ⟨0x00000000#32 :: digestWords t.hash, rfl, hc, hpending, execFinalize_closed hc⟩

/-- Settles O30: an open core compresses the rest of its message with the padding, a closed one holds that hash already. -/
theorem finalizeEmitsTheMessageDigest : Obligations.FinalizeEmitsTheMessageDigest := by
  intro s M hR
  refine ⟨append_padding_whole M (bitLength M), ?_⟩
  cases hc : s.closed with
  | true =>
    obtain ⟨-, hhash, -⟩ := (State.represents_closed hc).1 hR
    exact ⟨_, execFinalize_closed hc, hR, hc, hhash, rfl⟩
  | false =>
    have hbuf := hR.buf_length
    obtain ⟨hcnt, habs⟩ := (State.represents_open hc).1 hR
    have hhash : compressStar s.hash (s.buf ++ padding s.buf.length s.cnt) = messageHash M := by
      rw [← (State.padMessage_spec hbuf).1, habs.padMessage_hash hcnt]
    have hexec := execFinalize_open hc hbuf
    rw [hhash] at hexec
    exact ⟨_, hexec, (State.represents_closed rfl).2 ⟨hcnt, rfl, rfl⟩, rfl, rfl, rfl⟩

/-- Settles O32: the two digests, evaluated. -/
theorem publishedDigestsComeOut : Obligations.PublishedDigestsComeOut := ⟨by decide +kernel, by decide +kernel⟩

end Sys2Proof.Proofs
end

section
/-! SUPPORT. A step on a word as a whole: what it does to the hasher, to `DEC` and to the response port (43_control.md R190
to R196), and which of that shows `H`, `BUF`, `CNT` or a message byte (10_state.md R34). -/

namespace Sys2Proof

/-- A command word other than UPDATE's leaves `DEC = CMD` (10_state.md R30). -/
theorem Dec.after_cmd_of_not_update {w : Word} (h : ∀ n, decodeCommand w ≠ .update n) : Dec.cmd.after w = .cmd := by
  have hop : opField w ≠ 0x2#4 := fun hop => h _ ((decodeCommand_eq_update_iff w _).2 ⟨hop, rfl⟩)
  rw [Dec.after, if_neg fun hw => hop hw.1]

/-- UPDATE's command word opens its data words, if it has any (R30). -/
theorem Dec.after_cmd_of_update {w : Word} {n : BitVec 28} (h : decodeCommand w = .update n) :
    Dec.cmd.after w = if n = 0 then .cmd else .data n.toNat := by
  rw [← encode_decodeCommand w, h]
  exact Dec.after_encode_update n

end Sys2Proof

namespace Sys2Proof.Machine

variable {s s' t : State} {w : Word} {i : Instr}

/-! ## The step, said once -/

/-- The core with the hasher as the instruction leaves it; `DEC` and the response port are still those before it. -/
def State.hasherAfter (s : State) : Instr → State
  | .init => s.freshHasher
  | .finalize => if s.closed then s else s.padMessage.close
  | .data b0 b1 b2 b3 =>
    match s.dec with
    | .cmd => s
    | .data r => s.takeLanes (messageLanes r b0 b1 b2 b3)
  | .update _ | .illegalOp0 _ | .illegalInitArg _ | .illegalFinalizeArg _ | .illegalOp4to7 _ _ | .illegalOp8toF _ _ => s

theorem State.hasherAfter_of_isIllegal (h : i.isIllegal = true) : s.hasherAfter i = s := by
  cases i with
  | init | update | finalize | data => cases h
  | _ => rfl

theorem State.hasherAfter_decode_data {r : Nat} (hd : s.dec = .data r) (w : Word) :
    s.hasherAfter (decode s.dec w) = s.takeLanes ((wordBytes w).take (laneCount r)) := by
  rw [hd, decode, decodeData, State.hasherAfter, hd]
  rfl

/-- The step on a word completes, with the hasher, `DEC` and the answer of the instruction it is read as (R190). -/
theorem stepWord_eq_next (w : Word) (s : State) : stepWord w s =
    .next (((s.hasherAfter (decode s.dec w)).setDec (s.dec.after w)).emitAll (s.answer (decode s.dec w))) := by
  have hstays (hd : s.dec = .cmd) (hw : ∀ n, decode s.dec w ≠ .update n) : s.dec.after w = s.dec := by
    rw [hd] at hw ⊢
    exact Dec.after_cmd_of_not_update hw
  obtain ⟨hd, ⟨hw, e⟩ | ⟨n, hw, e⟩ | ⟨hw, e⟩ | ⟨hw, e⟩⟩ | ⟨r, hd, -⟩ := stepWord_cases w s
  · rw [e, hstays hd (by simp [hw]), hw]
    rfl
  · have hafter : s.dec.after w = if n = 0 then .cmd else .data n.toNat := by
      rw [hd] at hw ⊢
      exact Dec.after_cmd_of_update hw
    rw [e, hafter, hw, State.hasherAfter, State.answer]
    by_cases hn : n = 0
    · rw [hn, execUpdate_zero, if_pos rfl, if_pos rfl, State.setDec_of_dec_eq hd]
    · rw [execUpdate_of_ne_zero hn, if_neg hn, if_neg hn, State.emitAll, List.append_nil]
  · rw [e, hstays hd (by simp [hw]), hw, State.hasherAfter, State.answer]
    cases hc : s.closed with
    | true =>
      rw [execFinalize_closed hc]
      rfl
    | false =>
      have hdec : s.padMessage.close.setDec s.dec = s.padMessage.close :=
        State.setDec_of_dec_eq (by rw [State.close_dec, State.padMessage_dec])
      rw [execFinalize_of_open hc, if_neg Bool.false_ne_true, if_neg Bool.false_ne_true, hdec,
        State.emitStatus_eq_emitAll, State.emitAll_emitAll]
      rfl
  · have hnot (n : BitVec 28) : decode s.dec w ≠ .update n := fun hu => by simp [hu, Instr.isIllegal] at hw
    rw [e, hstays hd hnot, State.hasherAfter_of_isIllegal hw, State.answer_of_isIllegal hw, State.setDec_of_dec_eq rfl]
    rfl
  · rw [State.answer_decode_data hd, State.hasherAfter_decode_data hd, stepWord_data hd, hd, Dec.after]
    split
    · rfl
    · rw [State.emitAll, List.append_nil]

/-- The next state of a step on a word. -/
theorem eq_of_stepWord (h : stepWord w s = .next t) :
    t = ((s.hasherAfter (decode s.dec w)).setDec (s.dec.after w)).emitAll (s.answer (decode s.dec w)) := by
  rw [stepWord_eq_next, Host.Outcome.next.injEq] at h
  exact h.symm

/-- `DEC` after a word depends on `DEC` and the word alone (R30). -/
theorem stepWord_dec (h : stepWord w s = .next t) : t.dec = s.dec.after w := by
  rw [eq_of_stepWord h, State.emitAll_dec, State.setDec_dec]

/-! ## States that differ in `H`, `BUF` and `CNT` only (R34) -/

theorem State.SameButHidden.refl (s : State) : s.SameButHidden s := ⟨rfl, rfl, rfl, rfl, rfl, rfl, rfl⟩

theorem State.SameButHidden.symm (h : s.SameButHidden t) : t.SameButHidden s := by
  obtain ⟨hclosed, hdec, hpending, htaken, hinput, heverReset, hresets⟩ := h
  exact ⟨hclosed.symm, hdec.symm, hpending.symm, htaken.symm, hinput.symm, heverReset.symm, hresets.symm⟩

theorem State.SameButHidden.trans (h : s.SameButHidden s') (h' : s'.SameButHidden t) : s.SameButHidden t := by
  obtain ⟨hclosed, hdec, hpending, htaken, hinput, heverReset, hresets⟩ := h
  obtain ⟨hclosed', hdec', hpending', htaken', hinput', heverReset', hresets'⟩ := h'
  exact ⟨hclosed'.trans hclosed, hdec'.trans hdec, hpending'.trans hpending, htaken'.trans htaken,
    hinput'.trans hinput, heverReset'.trans heverReset, hresets'.trans hresets⟩

theorem State.SameButHidden.emitAll (h : s.SameButHidden t) (vs : List Word) :
    (s.emitAll vs).SameButHidden (t.emitAll vs) := by
  obtain ⟨hclosed, hdec, hpending, hport⟩ := h
  exact ⟨hclosed, hdec, by rw [State.emitAll_pending, State.emitAll_pending, hpending], hport⟩

theorem State.SameButHidden.setDec (h : s.SameButHidden t) (d : Dec) : (s.setDec d).SameButHidden (t.setDec d) := by
  obtain ⟨hclosed, -, hport⟩ := h
  exact ⟨hclosed, rfl, hport⟩

theorem State.SameButHidden.freshHasher (h : s.SameButHidden t) : s.freshHasher.SameButHidden t.freshHasher := by
  obtain ⟨-, hdec, hport⟩ := h
  exact ⟨rfl, hdec, hport⟩

/-- Message bytes go into the hidden fields only (41_block_buffer.md R144, R145). -/
theorem State.sameButHidden_takeLanes (s : State) (bs : List Byte) : s.SameButHidden (s.takeLanes bs) := by
  rw [State.takeLanes]
  split
  · exact State.SameButHidden.refl s
  · rw [State.accept_spec, State.feed_frame]
    exact ⟨rfl, rfl, rfl, rfl, rfl, rfl, rfl⟩

theorem State.sameButHidden_padMessage (s : State) : s.SameButHidden s.padMessage := by
  rw [State.padMessage_frame]
  exact ⟨rfl, rfl, rfl, rfl, rfl, rfl, rfl⟩

/-- Whatever the hidden fields hold, an instruction other than FINALIZE does the same to the fields that show. -/
theorem State.SameButHidden.hasherAfter (h : s.SameButHidden t) (hi : i ≠ .finalize) :
    (s.hasherAfter i).SameButHidden (t.hasherAfter i) := by
  cases i with
  | init => exact h.freshHasher
  | finalize => exact absurd rfl hi
  | data b0 b1 b2 b3 =>
    obtain ⟨-, hdec, -⟩ := id h
    rw [State.hasherAfter, State.hasherAfter, hdec]
    cases s.dec with
    | cmd => exact h
    | data r => exact ((s.sameButHidden_takeLanes _).symm.trans h).trans (t.sameButHidden_takeLanes _)
  | _ => exact h

/-- No answer but FINALIZE's shows a hidden field. -/
theorem State.SameButHidden.answer (h : s.SameButHidden t) (hi : i ≠ .finalize) : t.answer i = s.answer i := by
  obtain ⟨hclosed, hdec, -⟩ := h
  cases i with
  | finalize => exact absurd rfl hi
  | update n => rw [State.answer, State.answer, hclosed]
  | data b0 b1 b2 b3 => rw [State.answer, State.answer, hclosed, hdec]
  | _ => rfl

/-! ## What a closed core keeps, and what the host has taken -/

/-- Only INIT changes the hasher of a closed core (R27, R28). -/
theorem State.hasherAfter_of_closed (hc : s.closed = true) (hi : i ≠ .init) : s.hasherAfter i = s := by
  cases i with
  | init => exact absurd rfl hi
  | finalize => exact if_pos hc
  | data b0 b1 b2 b3 =>
    rw [State.hasherAfter]
    split
    · rfl
    · exact State.takeLanes_of_closed hc _
  | _ => rfl

/-- No instruction takes back a response word that the host has taken. -/
@[simp] theorem State.hasherAfter_taken (s : State) (i : Instr) : (s.hasherAfter i).taken = s.taken := by
  cases i with
  | finalize =>
    rw [State.hasherAfter]
    obtain ⟨-, -, -, htaken, -⟩ := s.sameButHidden_padMessage
    split
    · rfl
    · rw [State.close_taken, htaken]
  | data b0 b1 b2 b3 =>
    rw [State.hasherAfter]
    split
    · rfl
    · obtain ⟨-, -, -, htaken, -⟩ := s.sameButHidden_takeLanes (messageLanes _ b0 b1 b2 b3)
      exact htaken
  | _ => rfl

/-- A step on a word adds its answer to the responses, behind all others (R192). -/
theorem stepWord_responses (h : stepWord w s = .next t) : t.responses = s.responses ++ s.answer (decode s.dec w) := by
  have htaken : t.taken = s.taken := by
    rw [eq_of_stepWord h, State.emitAll_taken, State.setDec_taken, State.hasherAfter_taken]
  rw [State.responses, htaken, stepWord_pending h, ← List.append_assoc, State.responses]

/-! ## Data words of the same length (R196) -/

/-- How full the buffer is after a byte depends on how full it was before. -/
theorem State.feedByte_length_congr (h : s.buf.length = t.buf.length) (b c : Byte) :
    (s.feedByte b).buf.length = (t.feedByte c).buf.length := by
  obtain ⟨hs, es⟩ | ⟨hs, es⟩ := s.feedByte_cases b <;> obtain ⟨ht, et⟩ | ⟨ht, et⟩ := t.feedByte_cases c
  · rw [es, et]
  · exact absurd (h.symm.trans hs) ht
  · exact absurd (h.trans ht) hs
  · rw [es, et, List.length_append, List.length_append, h, List.length_singleton, List.length_singleton]

theorem State.feed_length_congr {bs cs : List Byte} (h : s.buf.length = t.buf.length) (hlen : bs.length = cs.length) :
    (s.feed bs).buf.length = (t.feed cs).buf.length := by
  induction bs generalizing s t cs with
  | nil =>
    obtain rfl : cs = [] := List.eq_nil_of_length_eq_zero hlen.symm
    exact h
  | cons b bs ih =>
    cases cs with
    | nil => cases hlen
    | cons c cs =>
      rw [State.feed_cons, State.feed_cons]
      exact ih (State.feedByte_length_congr h b c) (Nat.succ.inj hlen)

/-- The counter and the number of buffered bytes depend on how many bytes are taken in, not on which. -/
theorem State.takeLanes_congr_length (s : State) {bs cs : List Byte} (hlen : bs.length = cs.length) :
    (s.takeLanes bs).cnt = (s.takeLanes cs).cnt ∧ (s.takeLanes bs).buf.length = (s.takeLanes cs).buf.length := by
  cases hc : s.closed with
  | true => rw [State.takeLanes_of_closed hc, State.takeLanes_of_closed hc]; exact ⟨rfl, rfl⟩
  | false =>
    rw [State.takeLanes_of_open hc, State.takeLanes_of_open hc, State.accept_cnt, State.accept_cnt, State.accept_buf,
      State.accept_buf, hlen]
    exact ⟨rfl, State.feed_length_congr rfl hlen⟩

end Sys2Proof.Machine
end

section
/-! SUPPORT. The step by the next event (43_control.md R190; 70_reset_and_hazards.md R250, R253, R263). -/

namespace Sys2Proof.Machine

variable {s : State} {rest : List Input}

/-! ## The step on each event -/

theorem step_of_input_nil (h : s.input = []) : step s = .next s := by
  rw [step, h]

theorem step_of_input_take {n : Nat} (h : s.input = .take n :: rest) (hreset : s.everReset = true) :
    step s = .next ({ s with input := rest }.hostTake n) := by
  rw [step, h]
  exact if_pos hreset

/-- With room the word is run (R263). -/
theorem step_of_input_word {w : Word} (h : s.input = .word w :: rest) (hreset : s.everReset = true)
    (hroom : s.hasRoom = true) : step s = stepWord w { s with input := rest } := by
  rw [step, h]
  exact (if_pos hreset).trans (if_pos hroom)

/-- Without room the word waits (R263). -/
theorem step_of_input_word_full {w : Word} (h : s.input = .word w :: rest) (hreset : s.everReset = true)
    (hroom : s.hasRoom = false) : step s = .next s.waitForRoom := by
  rw [step, h]
  exact (if_pos hreset).trans (if_neg (by rw [hroom]; exact Bool.false_ne_true))

/-! ## The invariants -/

theorem State.resetEvent_inv (s : State) : s.resetEvent.Inv := ⟨Nat.zero_le _, fun _ => rfl, rfl⟩

@[simp] theorem State.hostTake_inv (n : Nat) : (s.hostTake n).Inv ↔ s.Inv := Iff.rfl

@[simp] theorem State.withInput_inv (rest : List Input) : ({ s with input := rest } : State).Inv ↔ s.Inv := Iff.rfl

theorem State.Inv.waitForRoom (hI : s.Inv) : s.waitForRoom.Inv := by
  obtain ⟨-, e⟩ | ⟨n, rest, -, e⟩ | ⟨rest, -, e⟩ := s.waitForRoom_cases
  · rwa [e]
  · rw [e]
    exact (State.hostTake_inv n).2 hI
  · rw [e]
    exact State.resetEvent_inv _

/-- Every event keeps the invariants (10_state.md R36). -/
theorem State.Inv.step {t : State} (hI : s.Inv) (h : step s = .next t) : t.Inv := by
  obtain ⟨-, e⟩ | ⟨rest, -, e⟩ | ⟨n, rest, -, e⟩ | ⟨w, rest, -, e⟩ := step_cases s
  · cases e.symm.trans h
    exact hI
  · cases e.symm.trans h
    exact State.resetEvent_inv _
  · rw [e] at h
    split at h
    · cases h
      exact (State.hostTake_inv n).2 hI
    · cases h
  · rw [e] at h
    split_ifs at h
    · obtain ⟨u, hu, hI', -⟩ := stepWord_advances ((State.withInput_inv rest).2 hI) w
      cases hu.symm.trans h
      exact hI'
    · cases h
      exact hI.waitForRoom

/-! ## The responses -/

/-- The host taking responses keeps them and their order (20_memory.md R63). -/
@[simp] theorem State.hostTake_responses (s : State) (n : Nat) : (s.hostTake n).responses = s.responses := by
  rw [State.responses, State.hostTake_taken, State.hostTake_pending, List.append_assoc, List.take_append_drop,
    State.responses]

theorem State.responses_waitForRoom (h : s.waitForRoom.resets = s.resets) : s.waitForRoom.responses = s.responses := by
  obtain ⟨-, e⟩ | ⟨n, rest, -, e⟩ | ⟨rest, -, e⟩ := s.waitForRoom_cases
  · rw [e]
  · rw [e, State.hostTake_responses]
    rfl
  · rw [e] at h
    exact absurd h (Nat.succ_ne_self s.resets)

/-- Every event but a reset keeps the responses there are, and adds behind them only (R263, R63). -/
theorem responses_isPrefix_of_step {t : State} (h : step s = .next t) (hresets : t.resets = s.resets) :
    s.responses <+: t.responses := by
  obtain ⟨-, e⟩ | ⟨rest, -, e⟩ | ⟨n, rest, -, e⟩ | ⟨w, rest, -, e⟩ := step_cases s
  · cases e.symm.trans h
    exact List.prefix_rfl
  · cases e.symm.trans h
    exact absurd hresets (Nat.succ_ne_self s.resets)
  · rw [e] at h
    split at h
    · cases h
      rw [State.hostTake_responses]
      exact List.prefix_rfl
    · cases h
  · rw [e] at h
    split_ifs at h
    · exact ⟨_, (stepWord_responses h).symm⟩
    · cases h
      rw [State.responses_waitForRoom hresets]

end Sys2Proof.Machine
end

section
/-! The statements of 10_state.md about every step: invariants, the closed core, `DEC`, and what stays hidden. -/

namespace Sys2Proof.Proofs
open Sys2Proof.Machine

/-- Settles O42: each event keeps the invariants. -/
theorem everyStepKeepsTheInvariants : Obligations.EveryStepKeepsTheInvariants :=
  fun _ _ hI h => hI.step h

/-- Settles O41: reset leaves a fresh hasher. -/
theorem resetMeetsTheInvariants : Obligations.ResetMeetsTheInvariants :=
  ⟨State.freshHasher_inv (s := State.reset) rfl, State.freshHasher_represents (s := State.reset)⟩

/-- Settles O46: no instruction but INIT changes the hasher of a closed core. -/
theorem onlyInitDisturbsAClosedCore : Obligations.OnlyInitDisturbsAClosedCore := by
  intro s t w hc hw h
  rw [eq_of_stepWord h, State.hasherAfter_of_closed hc hw]
  exact ⟨rfl, rfl, rfl, rfl⟩

/-- Settles O47: word by word, `DEC` follows the words. -/
theorem decoderStateFollowsTheWordsAlone : Obligations.DecoderStateFollowsTheWordsAlone := by
  intro ws
  induction ws with
  | nil =>
    intro s t h
    cases h
    rfl
  | cons w ws ih =>
    intro s t h
    have hw := stepWord_eq_next w s
    rw [runWords_cons hw] at h
    rw [ih _ t h, stepWord_dec hw, List.foldl_cons]

/-- Settles O48: the answer and `DEC` look at what is left of the UPDATE, and the lanes count by their number. -/
theorem controlIgnoresMessageBytes : Obligations.ControlIgnoresMessageBytes := by
  intro s t t' w w' r hd h h'
  have hlen : ((wordBytes w).take (laneCount r)).length = ((wordBytes w').take (laneCount r)).length := by
    rw [List.length_take, List.length_take, wordBytes_length, wordBytes_length]
  obtain ⟨hcnt, hbuf⟩ := s.takeLanes_congr_length hlen
  refine ⟨?_, ?_, ?_, ?_, ?_⟩
  · rw [stepWord_dec h, stepWord_dec h', hd, Dec.after, Dec.after]
  · rw [eq_of_stepWord h, eq_of_stepWord h', State.hasherAfter_decode_data hd, State.hasherAfter_decode_data hd]
    simp
  · rw [eq_of_stepWord h, eq_of_stepWord h', State.hasherAfter_decode_data hd, State.hasherAfter_decode_data hd]
    exact hcnt
  · rw [stepWord_pending h, stepWord_pending h', State.answer_decode_data hd, State.answer_decode_data hd]
  · rw [eq_of_stepWord h, eq_of_stepWord h', State.hasherAfter_decode_data hd, State.hasherAfter_decode_data hd]
    exact hbuf

/-- Settles O49: both states read the word alike, and no instruction but FINALIZE looks at the hidden fields. -/
theorem hiddenStateShowsOnlyThroughFinalize : Obligations.HiddenStateShowsOnlyThroughFinalize := by
  intro s s' w h hw
  obtain ⟨-, hdec, -⟩ := id h
  refine ⟨_, _, stepWord_eq_next w s, stepWord_eq_next w s', ?_⟩
  rw [hdec, h.answer hw]
  exact ((h.hasherAfter hw).setDec _).emitAll _

end Sys2Proof.Proofs
end

section
/-! The statements of 43_control.md §1, §3 and §4 and of 70_reset_and_hazards.md about the step and its events. -/

namespace Sys2Proof.Proofs
open Sys2Proof.Machine

/-- Settles O36: with room the word is run; without, the host's next act is performed, if there is one. -/
theorem offeredWordRunsOrWaits : Obligations.OfferedWordRunsOrWaits := by
  intro s w rest h hreset waiting
  cases hroom : s.hasRoom with
  | true => exact .inl ⟨rfl, step_of_input_word h hreset hroom⟩
  | false =>
    have hpending : s.pending ≠ [] := fun hnil => by simp [State.hasRoom_of_pending_nil s hnil] at hroom
    have hhead : (s.input.takeWhile Input.isWord).head? = some (.word w) := by
      rw [h]
      rfl
    have hstep := step_of_input_word_full h hreset hroom
    refine .inr ⟨rfl, hpending, hhead, ?_⟩
    obtain ⟨hinput, e⟩ | ⟨n, later, hinput, e⟩ | ⟨later, hinput, e⟩ := s.waitForRoom_cases
    · exact .inl ⟨hinput, by rw [hstep, e]⟩
    · exact .inr (.inl ⟨n, later, hinput, by rw [hstep, e, State.hostTake]⟩)
    · exact .inr (.inr ⟨later, hinput, by rw [hstep, e]⟩)

/-- Settles O50: an answer and a taking leave the responses before them in place. -/
theorem responsesAreNeverDropped : Obligations.ResponsesAreNeverDropped :=
  fun _ _ h hresets => responses_isPrefix_of_step h hresets

/-- Settles O35: with room the step is the meaning of the word that the decoder reads. -/
theorem stepRunsTheDecodedInstruction : Obligations.StepRunsTheDecodedInstruction :=
  fun s _ _ h hreset => ⟨fun hroom => step_of_input_word h hreset hroom, fun hnil => s.hasRoom_of_pending_nil hnil⟩

/-- Settles O37: the step with no event, and with a taking. -/
theorem coreHoldsItsStateBetweenWords : Obligations.CoreHoldsItsStateBetweenWords :=
  fun _ => ⟨step_of_input_nil, fun _ _ h hreset => step_of_input_take h hreset⟩

/-- Settles O40: the step asks for a reset before it looks at a word or a taking. -/
theorem runsMustBeginWithReset : Obligations.RunsMustBeginWithReset := by
  refine fun s hreset => ⟨fun w rest h => ?_, fun n rest h => ?_⟩
  · simp [step, h, hreset]
  · simp [step, h, hreset]

/-- Settles O33: the fresh hasher, then OK. -/
theorem initStartsAFreshMessage : Obligations.InitStartsAFreshMessage := fun _ => rfl

/-- Settles O34: every illegal command word has the same meaning. -/
theorem illegalCommandsOnlyReport : Obligations.IllegalCommandsOnlyReport :=
  fun s _ _ => ⟨exec_of_isIllegal rfl s, exec_of_isIllegal rfl s, exec_of_isIllegal rfl s, exec_of_isIllegal rfl s,
    exec_of_isIllegal rfl s⟩

end Sys2Proof.Proofs
end
